-- ==== Sys2Proof/Word.lean ====
section
/-! DEFINITION. The bit vectors of the spiminator core: words, addresses and the fields of an instruction
(spec/00_scope.md rule R2 and section 5.1). A vector stands only where the spec speaks of bits. -/

namespace Sys2Proof

/-- A 32-bit word: a register value, an instruction, a data memory cell or an instruction index (R2, `XLEN`,
`ILEN`, `MEM_WORD_BITS`, `PC_WIDTH`). `toNat` is the spec's `u(v)` and `toInt` its `s(v)`. -/
abbrev Word := BitVec 32

/-- A data memory address (R2, `MEM_ADDR_BITS`). -/
abbrev Addr := BitVec 32

/-- A register index: five bits, every value names a register (R10, R51). -/
abbrev RegIdx := BitVec 5

/-- The shift amount field (R2, `SHAMT_BITS`; R50). -/
abbrev Shamt := BitVec 5

/-- The immediate datum of an immediate-type instruction (R48, R49). -/
abbrev Imm16 := BitVec 16

end Sys2Proof
end

