-- ==== Sys2Proof/Syntax.lean ====
section
/-! DEFINITION. The decoded instruction (spec/30_encoding.md rule R52): one constructor per row of
spec/opcode_table.json, 15 register-type and 6 immediate-type. A register-type instruction carries rs, rt, rd
and shamt, an immediate-type one rs, rt and imm, used or not (R52, R58): the decoded instruction keeps every
field of its word. Each field has exactly the width of its bits in the word. -/

namespace Sys2Proof

/-- A decoded instruction (R52). Register-type operands stand in the order rs, rt, rd, shamt; immediate-type
operands in the order rs, rt, imm. -/
inductive Instr where
  /-- shift-left-logical (R91) -/
  | sll (rs rt rd : RegIdx) (shamt : Shamt)
  /-- shift-right-logical (R92) -/
  | srl (rs rt rd : RegIdx) (shamt : Shamt)
  /-- shift-right-arithmetic (R93) -/
  | sra (rs rt rd : RegIdx) (shamt : Shamt)
  /-- shift-left-logical-variable (R94) -/
  | sllv (rs rt rd : RegIdx) (shamt : Shamt)
  /-- shift-right-logical-variable (R95) -/
  | srlv (rs rt rd : RegIdx) (shamt : Shamt)
  /-- shift-right-arithmetic-variable (R96) -/
  | srav (rs rt rd : RegIdx) (shamt : Shamt)
  /-- syscall (R130) -/
  | syscall (rs rt rd : RegIdx) (shamt : Shamt)
  /-- add, checked (R101) -/
  | add (rs rt rd : RegIdx) (shamt : Shamt)
  /-- add-unsigned (R102) -/
  | addu (rs rt rd : RegIdx) (shamt : Shamt)
  /-- subtract, checked (R103) -/
  | sub (rs rt rd : RegIdx) (shamt : Shamt)
  /-- subtract-unsigned (R104) -/
  | subu (rs rt rd : RegIdx) (shamt : Shamt)
  /-- bitwise and (R111) -/
  | and (rs rt rd : RegIdx) (shamt : Shamt)
  /-- bitwise or (R112) -/
  | or (rs rt rd : RegIdx) (shamt : Shamt)
  /-- bitwise exclusive or (R113) -/
  | xor (rs rt rd : RegIdx) (shamt : Shamt)
  /-- bitwise not-or (R114) -/
  | nor (rs rt rd : RegIdx) (shamt : Shamt)
  /-- add-immediate, checked (R120) -/
  | addi (rs rt : RegIdx) (imm : Imm16)
  /-- add-immediate-unsigned (R121) -/
  | addiu (rs rt : RegIdx) (imm : Imm16)
  /-- and-immediate (R122) -/
  | andi (rs rt : RegIdx) (imm : Imm16)
  /-- or-immediate (R123) -/
  | ori (rs rt : RegIdx) (imm : Imm16)
  /-- xor-immediate (R124) -/
  | xori (rs rt : RegIdx) (imm : Imm16)
  /-- load-upper-immediate (R125) -/
  | lui (rs rt : RegIdx) (imm : Imm16)
  deriving DecidableEq, Repr

/-- The operation selector of a decoded instruction: the two closed enumerations of R52 together. -/
inductive Op where
  | sll | srl | sra | sllv | srlv | srav | syscall
  | add | addu | sub | subu | and | or | xor | nor
  | addi | addiu | andi | ori | xori | lui
  deriving DecidableEq, Repr

/-- The operation of an instruction, its operands dropped (R52). -/
def Instr.op : Instr → Op
  | .sll .. => .sll
  | .srl .. => .srl
  | .sra .. => .sra
  | .sllv .. => .sllv
  | .srlv .. => .srlv
  | .srav .. => .srav
  | .syscall .. => .syscall
  | .add .. => .add
  | .addu .. => .addu
  | .sub .. => .sub
  | .subu .. => .subu
  | .and .. => .and
  | .or .. => .or
  | .xor .. => .xor
  | .nor .. => .nor
  | .addi .. => .addi
  | .addiu .. => .addiu
  | .andi .. => .andi
  | .ori .. => .ori
  | .xori .. => .xori
  | .lui .. => .lui

end Sys2Proof
end

