-- ==== Sys2Proof/Decode.lean ====
section
/-! DEFINITION. The instruction decoder and the encoder (spec/30_encoding.md rules R45 to R63). The decoder is a
pure total function of the word; it tests the opcode and, for opcode 0, the funct, and nothing else (R58). The
numeric values of opcode and funct are those of R53 and R54 (notes/assumptions/8.md). -/

namespace Sys2Proof

/-- The opcode field, bits 31:26 (R46). -/
def opcodeOf (w : Word) : BitVec 6 := w.extractLsb' 26 6

/-- The rs field, bits 25:21 (R47, R48). -/
def rsOf (w : Word) : RegIdx := w.extractLsb' 21 5

/-- The rt field, bits 20:16 (R47, R48). -/
def rtOf (w : Word) : RegIdx := w.extractLsb' 16 5

/-- The rd field, bits 15:11 (R47). -/
def rdOf (w : Word) : RegIdx := w.extractLsb' 11 5

/-- The shamt field, bits 10:6 (R47, R50). -/
def shamtOf (w : Word) : Shamt := w.extractLsb' 6 5

/-- The funct field, bits 5:0 (R47). -/
def functOf (w : Word) : BitVec 6 := w.extractLsb' 0 6

/-- The immediate datum, bits 15:0 (R48, R49). -/
def immOf (w : Word) : Imm16 := w.extractLsb' 0 16

/-- The decode errors; each carries the whole word (R55, R56). -/
inductive DecodeError where
  /-- the opcode is neither 0 nor one of the six immediate-type opcodes (R55) -/
  | invalidOpcode (raw : Word)
  /-- the opcode is 0 and the funct is not one of the 15 register-type functs (R56) -/
  | invalidFunct (raw : Word)
  deriving DecidableEq, Repr

/-- Register-type dispatch on funct (R53, R56). -/
def decodeRegister (w : Word) : Except DecodeError Instr :=
  match functOf w with
  | 0x00#6 => .ok (.sll (rsOf w) (rtOf w) (rdOf w) (shamtOf w))
  | 0x02#6 => .ok (.srl (rsOf w) (rtOf w) (rdOf w) (shamtOf w))
  | 0x03#6 => .ok (.sra (rsOf w) (rtOf w) (rdOf w) (shamtOf w))
  | 0x04#6 => .ok (.sllv (rsOf w) (rtOf w) (rdOf w) (shamtOf w))
  | 0x06#6 => .ok (.srlv (rsOf w) (rtOf w) (rdOf w) (shamtOf w))
  | 0x07#6 => .ok (.srav (rsOf w) (rtOf w) (rdOf w) (shamtOf w))
  | 0x0C#6 => .ok (.syscall (rsOf w) (rtOf w) (rdOf w) (shamtOf w))
  | 0x20#6 => .ok (.add (rsOf w) (rtOf w) (rdOf w) (shamtOf w))
  | 0x21#6 => .ok (.addu (rsOf w) (rtOf w) (rdOf w) (shamtOf w))
  | 0x22#6 => .ok (.sub (rsOf w) (rtOf w) (rdOf w) (shamtOf w))
  | 0x23#6 => .ok (.subu (rsOf w) (rtOf w) (rdOf w) (shamtOf w))
  | 0x24#6 => .ok (.and (rsOf w) (rtOf w) (rdOf w) (shamtOf w))
  | 0x25#6 => .ok (.or (rsOf w) (rtOf w) (rdOf w) (shamtOf w))
  | 0x26#6 => .ok (.xor (rsOf w) (rtOf w) (rdOf w) (shamtOf w))
  | 0x27#6 => .ok (.nor (rsOf w) (rtOf w) (rdOf w) (shamtOf w))
  | _ => .error (.invalidFunct w)

/-- Immediate-type dispatch on the opcode (R54, R55). -/
def decodeImmediate (w : Word) : Except DecodeError Instr :=
  match opcodeOf w with
  | 0x08#6 => .ok (.addi (rsOf w) (rtOf w) (immOf w))
  | 0x09#6 => .ok (.addiu (rsOf w) (rtOf w) (immOf w))
  | 0x0C#6 => .ok (.andi (rsOf w) (rtOf w) (immOf w))
  | 0x0D#6 => .ok (.ori (rsOf w) (rtOf w) (immOf w))
  | 0x0E#6 => .ok (.xori (rsOf w) (rtOf w) (immOf w))
  | 0x0F#6 => .ok (.lui (rsOf w) (rtOf w) (immOf w))
  | _ => .error (.invalidOpcode w)

/-- The decoder (R57). -/
def decode (w : Word) : Except DecodeError Instr :=
  if opcodeOf w = 0 then decodeRegister w else decodeImmediate w

/-- The register-type word with these fields: opcode 0, then rs, rt, rd, shamt, funct (R47, R63). -/
def registerWord (rs rt rd : RegIdx) (shamt : Shamt) (funct : BitVec 6) : Word :=
  0#6 ++ rs ++ rt ++ rd ++ shamt ++ funct

/-- The immediate-type word with these fields: opcode, rs, rt, imm (R48, R63). -/
def immediateWord (opcode : BitVec 6) (rs rt : RegIdx) (imm : Imm16) : Word :=
  opcode ++ rs ++ rt ++ imm

/-- The encoder, the inverse of `decode` (R63). -/
def encode : Instr → Word
  | .sll rs rt rd shamt => registerWord rs rt rd shamt 0x00
  | .srl rs rt rd shamt => registerWord rs rt rd shamt 0x02
  | .sra rs rt rd shamt => registerWord rs rt rd shamt 0x03
  | .sllv rs rt rd shamt => registerWord rs rt rd shamt 0x04
  | .srlv rs rt rd shamt => registerWord rs rt rd shamt 0x06
  | .srav rs rt rd shamt => registerWord rs rt rd shamt 0x07
  | .syscall rs rt rd shamt => registerWord rs rt rd shamt 0x0C
  | .add rs rt rd shamt => registerWord rs rt rd shamt 0x20
  | .addu rs rt rd shamt => registerWord rs rt rd shamt 0x21
  | .sub rs rt rd shamt => registerWord rs rt rd shamt 0x22
  | .subu rs rt rd shamt => registerWord rs rt rd shamt 0x23
  | .and rs rt rd shamt => registerWord rs rt rd shamt 0x24
  | .or rs rt rd shamt => registerWord rs rt rd shamt 0x25
  | .xor rs rt rd shamt => registerWord rs rt rd shamt 0x26
  | .nor rs rt rd shamt => registerWord rs rt rd shamt 0x27
  | .addi rs rt imm => immediateWord 0x08 rs rt imm
  | .addiu rs rt imm => immediateWord 0x09 rs rt imm
  | .andi rs rt imm => immediateWord 0x0C rs rt imm
  | .ori rs rt imm => immediateWord 0x0D rs rt imm
  | .xori rs rt imm => immediateWord 0x0E rs rt imm
  | .lui rs rt imm => immediateWord 0x0F rs rt imm

/-- The mask column of the match and mask table under R54: the bits the decoder tests. -/
def opMask : Op → Word
  | .sll | .srl | .sra | .sllv | .srlv | .srav | .syscall
  | .add | .addu | .sub | .subu | .and | .or | .xor | .nor => 0xFC00003F
  | .addi | .addiu | .andi | .ori | .xori | .lui => 0xFC000000

/-- The match column of the match and mask table under R54. -/
def opMatch : Op → Word
  | .sll => 0x00000000
  | .srl => 0x00000002
  | .sra => 0x00000003
  | .sllv => 0x00000004
  | .srlv => 0x00000006
  | .srav => 0x00000007
  | .syscall => 0x0000000C
  | .add => 0x00000020
  | .addu => 0x00000021
  | .sub => 0x00000022
  | .subu => 0x00000023
  | .and => 0x00000024
  | .or => 0x00000025
  | .xor => 0x00000026
  | .nor => 0x00000027
  | .addi => 0x20000000
  | .addiu => 0x24000000
  | .andi => 0x30000000
  | .ori => 0x34000000
  | .xori => 0x38000000
  | .lui => 0x3C000000

/-- What the decoder reads from the instruction whose `nbits` table bits are `w`, every bit above them 0. A
word of this hardware is a number, not a byte sequence (R37, R45), so no byte order enters. -/
def decodeTableWord (nbits w : Nat) : Option Instr :=
  match decode (BitVec.ofNat 32 (w % 2 ^ nbits)) with
  | .ok i => some i
  | .error _ => none

end Sys2Proof
end

