-- ==== Sys2Proof/Config.lean ====
section
/-! DEFINITION. The constants of the machine (spec/00_scope.md rule R2) and the one parameter the spec leaves
open (spec/93_implementation_defined.md U1). -/

namespace Sys2Proof

/-- `NREGS`: the number of general registers (R2, R10). -/
def Config.nregs : Nat := 32

/-- `ZERO`: the index of the hardwired-zero register (R2, R12). -/
def Config.zeroReg : RegIdx := 0

/-- `V0`: the index of the register that holds the syscall code (R2, R11). -/
def Config.v0 : RegIdx := 2

/-- `SYS_EXIT`: the one defined syscall code (R2, R131). -/
def Config.sysExit : Word := 10

/-- The largest `PROG_LEN` (R2): one below the number of 32-bit indices, so that the index one past the last
instruction is representable (R19). -/
def Config.maxProgramLength : Nat := 2 ^ 32 - 1

/-- `UNMAPPED_READ_POLICY` (20_memory.md R32; 93_implementation_defined.md U1), the one parameter the spec leaves
OPEN: what a load instruction would answer for an unmapped address (`none`: it would fault). The hardware
has no load (R33), so no definition of the model reads it, as no rule of the spec does. It has no value that
Lean could compute or a proof could use. -/
opaque Config.unmappedReadPolicy : Addr → Option Word

end Sys2Proof
end

