-- ==== Sys2Proof/Machine/State.lean ====
section
/-! DEFINITION. The whole state of the machine (spec/10_state.md, spec/20_memory.md), the five faults, the
model's refusals, and the state after reset. There are no flags, no control registers and no other register
file (R22, R23, R24). -/

namespace Sys2Proof.Machine

/-- The five faults (R140). Every fault the hardware raises is TAKEN as the spec describes its entry (R146): the
step answers a next state whose status is `faulted f`. No definition of the model answers `Outcome.fault`. -/
inductive Fault where
  /-- Raised at decode for a word whose opcode is neither 0 nor one of the six immediate-type opcodes; carries the
  whole word (R141). Safe: the spec names this fault and its entry. -/
  | invalidOpcode (raw : Word)
  /-- Raised at decode for a word of opcode 0 whose funct is none of the 15; carries the whole word (R142).
  Safe: the spec names this fault and its entry. -/
  | invalidFunct (raw : Word)
  /-- Raised by add, sub and addi when the exact signed result does not fit and the destination is not register 0
  (R143). Safe: the spec names this fault and its entry. -/
  | integerOverflow
  /-- Raised by every instruction with a destination when that destination is register 0 (R144). Safe: the spec
  names this fault and its entry. -/
  | zeroRegisterWrite
  /-- Raised by syscall when register 2 does not hold 10; carries the whole of register 2 (R145). Safe: the spec
  names this fault and its entry. -/
  | unsupportedSyscall (code : Word)
  deriving DecidableEq, Repr

/-- What the model refuses. No step and no instruction is ever refused: the last two are answers to the host. -/
inductive Refusal where
  /-- An instruction without a meaning. No arm of `exec` answers it: all 21 have their meaning. Safe. -/
  | notModelled (mnemonic : String)
  /-- Answered by `resetLoad` for arguments of the wrong shape (93_implementation_defined.md U9: such a reset is
  not a reset of this hardware). Safe: it stops where the spec gives no machine. -/
  | malformedReset
  /-- Answered by the inspection ports while the run goes on (R72, R175, R176: inspection exists only after the
  run). Safe: it stops where the spec gives the host no move. -/
  | inspectedWhileRunning
  deriving DecidableEq, Repr

/-- The run status (R20). -/
inductive RunStatus where
  /-- the run goes on -/
  | running
  /-- a clean end: the exit syscall, or the pc past the end of the store -/
  | halted
  /-- the first fault ended the run -/
  | faulted (f : Fault)
  deriving DecidableEq, Repr

/-- The storage of the register file: registers 1 to 31, register r in cell r - 1. Register 0 has no storage
(R12; 93_implementation_defined.md U6). -/
abbrev RegFile := Vector Word 31

/-- The data memory (R30, R31): a finite partial map from address to whole word, as (address, word) pairs. Each
address names one independent 32-bit cell; there are no bytes (R31, R37; notes/assumptions/5.md). -/
abbrev Memory := List (Nat × Word)

/-- What an address that the map does not hold reads as: no word, the answer `unmapped` (R32). -/
def Memory.unlisted : Option Word := none

/-- The canonical form: addresses strictly rising, each of 32 bits. (An entry always differs from what an
unlisted address reads as, since it holds a word.) -/
def Memory.wf (m : Memory) : Bool :=
  decide ((m.map Prod.fst).Pairwise (· < ·)) && m.all (fun c => decide (c.1 < 2 ^ 32))

/-- The machine's state. -/
structure State where
  /-- registers 1 to 31 (R10) -/
  regs : RegFile
  /-- the program counter: an instruction index, not a byte address (R17) -/
  pc : Word
  /-- the run status, with the recorded fault (R20) -/
  status : RunStatus
  /-- the data memory, which no instruction reaches (R30, R33) -/
  mem : Memory
  /-- the instruction store `program`; `PROG_LEN` is its length (R35). A parameter of the run that no step changes,
  held here because a step reads it (notes/assumptions/1.md) -/
  program : List Word
  deriving DecidableEq, Repr

/-- The state with other registers. -/
def State.withRegs (s : State) (r : RegFile) : State := { s with regs := r }

/-- The state with another program counter. -/
def State.withPc (s : State) (p : Word) : State := { s with pc := p }

/-- The state with another run status. -/
def State.withStatus (s : State) (t : RunStatus) : State := { s with status := t }

/-- The state with another data memory. -/
def State.withMem (s : State) (m : Memory) : State := { s with mem := m }

/-- The state with another instruction store. -/
def State.withProgram (s : State) (p : List Word) : State := { s with program := p }

/-- Right after a reset for which the host supplies nothing (R27, R171): every register 0, the pc 0, running, no
address mapped, the empty program. -/
def State.reset : State where
  regs := Vector.replicate 31 0
  pc := 0
  status := .running
  mem := []
  program := []

end Sys2Proof.Machine
end

