-- ==== Sys2Proof/Machine/Ops.lean ====
section
/-! DEFINITION. The named operations over registers, memory and status: the register file's ports, the data
memory map, instruction fetch, the commit of a result, fault entry and halt. -/

namespace Sys2Proof.Machine

/-- The answer of a step of this machine. -/
abbrev Result := Host.Outcome State Fault Refusal

/-- The register read port `x[r]` (R12, R71): register 0 reads zero, every other register its storage. It never
fails. -/
def readReg (s : State) (r : RegIdx) : Word :=
  if r = Config.zeroReg then 0 else s.regs[r.toNat - 1]'(by have := r.isLt; omega)

/-- The unsigned view of a register (R13). -/
def readUnsigned (s : State) (r : RegIdx) : Nat := (readReg s r).toNat

/-- The signed view of a register: the same bits (R13). -/
def readSigned (s : State) (r : RegIdx) : Int := (readReg s r).toInt

/-- Storage of one register; only `writeReg` calls it, for r other than 0. -/
def storeReg (regs : RegFile) (r : RegIdx) (v : Word) : RegFile :=
  regs.set (r.toNat - 1) v (by have := r.isLt; omega)

/-- The guarded write port `x[r] <- v` (R14, R71): a write to register 0 is rejected, whatever the value. -/
def writeReg (s : State) (r : RegIdx) (v : Word) : Except Fault State :=
  if r = Config.zeroReg then .error .zeroRegisterWrite else .ok (s.withRegs (storeReg s.regs r v))

/-- `pc <- pc + 1` (R18). -/
def advancePc (s : State) : State := s.withPc (s.pc + 1)

/-- TAKING A FAULT (R146): the status records the fault and nothing else changes. No register, no memory cell and
not the pc; nothing is saved and control goes nowhere. There is no return from a fault (R151), so no operation
stands beside this one. -/
def raiseFault (f : Fault) (s : State) : Result := .next (s.withStatus (.faulted f))

/-- The clean end of a run (R75, R130): the status becomes `halted` and nothing else changes. -/
def halt (s : State) : Result := .next (s.withStatus .halted)

/-- The commit of an instruction (R73 case (a), R79): the guarded write of the result and the pc's advance, in one
step. -/
def commit (d : RegIdx) (v : Word) (s : State) : Result :=
  match writeReg s d v with
  | .ok t => .next (advancePc t)
  | .error f => raiseFault f s

/-- The check order of every instruction with a destination (R80, R150): register 0 as destination first, then the
fault of the computation, then the commit. -/
def finish (d : RegIdx) (result : Except Fault Word) (s : State) : Result :=
  if d = Config.zeroReg then raiseFault .zeroRegisterWrite s
  else match result with
    | .error f => raiseFault f s
    | .ok v => commit d v s

/-- `IFetch(pc)` (R35, R36): the word at index pc of the store, none when the pc is past its end. -/
def fetch (s : State) : Option Word := s.program[s.pc.toNat]?

/-- The fault a decode error becomes (R141, R142). -/
def decodeFault : DecodeError → Fault
  | .invalidOpcode raw => .invalidOpcode raw
  | .invalidFunct raw => .invalidFunct raw

/-- The cell at a numeric address, or `Memory.unlisted`. -/
def Memory.lookup : Memory → Nat → Option Word
  | [], _ => Memory.unlisted
  | (b, u) :: m, a => if a = b then some u else Memory.lookup m a

/-- The data memory's answer for an address: its word, or unmapped (R30, R32). -/
def Memory.read (m : Memory) (a : Addr) : Option Word := Memory.lookup m a.toNat

/-- The map with one cell set, its addresses kept rising. -/
def Memory.insert : Memory → Nat → Word → Memory
  | [], a, v => [(a, v)]
  | (b, u) :: m, a, v =>
    if a < b then (a, v) :: (b, u) :: m
    else if a = b then (a, v) :: m
    else (b, u) :: Memory.insert m a v

/-- The map in which address a holds v (R30: an address is materialised when written). Only the loading of
`initial_memory` writes (R33, R34). -/
def Memory.write (m : Memory) (a : Addr) (v : Word) : Memory := Memory.insert m a.toNat v

/-- The map given by its (address, word) pairs (R171). -/
def Memory.ofCells : List (Addr × Word) → Memory
  | [] => []
  | c :: cs => Memory.write (Memory.ofCells cs) c.1 c.2

/-- The register file loaded from 32 words, entry 0 dropped (R12, R27). -/
def loadRegs (words : List Word) : RegFile := Vector.ofFn fun i => words.getD (i.val + 1) 0

/-- A store with word w at index n; indices the store lacks below n are filled with zero words. -/
def placeWord : List Word → Nat → Word → List Word
  | [], 0, w => [w]
  | _ :: p, 0, w => w :: p
  | [], n + 1, w => 0 :: placeWord [] n w
  | x :: p, n + 1, w => x :: placeWord p n w

end Sys2Proof.Machine
end

