-- ==== Sys2Proof/Machine/Operands.lean ====
section
/-! DEFINITION. The operand forms: the three 32-bit forms of the immediate datum (spec/30_encoding.md rule R49)
and the two sources of a shift amount (rules R50, R90). There are no addressing modes (R33). -/

namespace Sys2Proof.Machine

/-- The signed form `sext_32(imm)`: bit 15 replicated into bits 31:16 (R49). -/
def signedImm (imm : Imm16) : Word := imm.signExtend 32

/-- The unsigned form `zext_32(imm)`: zeros in bits 31:16 (R49). -/
def unsignedImm (imm : Imm16) : Word := imm.setWidth 32

/-- The shifted form: the datum in bits 31:16, zeros below (R49, R125). -/
def upperImm (imm : Imm16) : Word := imm ++ 0#16

/-- The amount of an immediate shift, 0 to 31 (R90 (b)). -/
def fieldAmount (shamt : Shamt) : Nat := shamt.toNat

/-- The amount of a variable shift: the low five bits of a register's value (R90 (c)). -/
def registerAmount (v : Word) : Nat := (v.extractLsb' 0 5).toNat

end Sys2Proof.Machine
end

