-- ==== Sys2Proof/Machine/Flags.lean ====
section
/-! DEFINITION. The hardware has no flags (spec/10_state.md rule R22). What other machines report in a flag, signed
overflow, is here the fault `integerOverflow`; this file holds that test (spec/42_arith_reg.md rule R105 (c)) and
the results of the checked and wrapping forms. Carry and borrow are recorded nowhere (R105 (e)). -/

namespace Sys2Proof.Machine

/-- The exact integer is outside -2^31 .. 2^31 - 1 (R101, R103, R120). -/
def outOfRange (t : Int) : Bool := decide (t < -2 ^ 31 ∨ 2 ^ 31 - 1 < t)

/-- The outcome of a checked form on its exact signed result (R105 (c)). -/
def checked (t : Int) : Except Fault Word :=
  if outOfRange t then .error .integerOverflow else .ok (BitVec.ofInt 32 t)

/-- The checked sum of two words in the signed view (R101, R120). -/
def addChecked (a b : Word) : Except Fault Word := checked (a.toInt + b.toInt)

/-- The checked difference of two words in the signed view (R103). -/
def subChecked (a b : Word) : Except Fault Word := checked (a.toInt - b.toInt)

/-- The sum modulo 2^32 (R102, R121). -/
def addWrap (a b : Word) : Word := a + b

/-- The difference modulo 2^32 (R104). -/
def subWrap (a b : Word) : Word := a - b

end Sys2Proof.Machine
end

