-- ==== Sys2Proof/Machine/ArithReg.lean ====
section
/-! DEFINITION. Register-type add and subtract (spec/42_arith_reg.md): first operand x[rs], second x[rt],
destination x[rd]; the shamt field is ignored (R100). -/

namespace Sys2Proof.Machine

/-- add, checked (R101). -/
def execAdd (rs rt rd : RegIdx) (_shamt : Shamt) (s : State) : Result :=
  finish rd (addChecked (readReg s rs) (readReg s rt)) s

/-- addu (R102): it wraps and never overflows. -/
def execAddu (rs rt rd : RegIdx) (_shamt : Shamt) (s : State) : Result :=
  finish rd (.ok (addWrap (readReg s rs) (readReg s rt))) s

/-- sub, checked (R103): x[rs] minus x[rt]. -/
def execSub (rs rt rd : RegIdx) (_shamt : Shamt) (s : State) : Result :=
  finish rd (subChecked (readReg s rs) (readReg s rt)) s

/-- subu (R104): it wraps and never overflows. -/
def execSubu (rs rt rd : RegIdx) (_shamt : Shamt) (s : State) : Result :=
  finish rd (.ok (subWrap (readReg s rs) (readReg s rt))) s

end Sys2Proof.Machine
end

