-- ==== Sys2Proof/Machine/Immediate.lean ====
section
/-! DEFINITION. The six immediate-type instructions (spec/44_immediate.md): source x[rs], the form of the immediate
that R49 assigns, destination x[rt] (R126). -/

namespace Sys2Proof.Machine

/-- addi, checked (R120): the immediate is sign-extended. -/
def execAddi (rs rt : RegIdx) (imm : Imm16) (s : State) : Result :=
  finish rt (addChecked (readReg s rs) (signedImm imm)) s

/-- addiu (R121): the immediate is sign-extended; it wraps and never overflows. -/
def execAddiu (rs rt : RegIdx) (imm : Imm16) (s : State) : Result :=
  finish rt (.ok (addWrap (readReg s rs) (signedImm imm))) s

/-- andi (R122): the immediate is zero-extended. -/
def execAndi (rs rt : RegIdx) (imm : Imm16) (s : State) : Result :=
  finish rt (.ok (readReg s rs &&& unsignedImm imm)) s

/-- ori (R123): the immediate is zero-extended. -/
def execOri (rs rt : RegIdx) (imm : Imm16) (s : State) : Result :=
  finish rt (.ok (readReg s rs ||| unsignedImm imm)) s

/-- xori (R124): the immediate is zero-extended. -/
def execXori (rs rt : RegIdx) (imm : Imm16) (s : State) : Result :=
  finish rt (.ok (readReg s rs ^^^ unsignedImm imm)) s

/-- lui (R125): the immediate in the upper half, zeros below; no register is read and rs is ignored. -/
def execLui (_rs rt : RegIdx) (imm : Imm16) (s : State) : Result :=
  finish rt (.ok (upperImm imm)) s

end Sys2Proof.Machine
end

