-- ==== Sys2Proof/Machine/LogicReg.lean ====
section
/-! DEFINITION. Register-type bitwise instructions (spec/43_logic_reg.md): operands x[rs] and x[rt], destination
x[rd]; the shamt field is ignored (R110). -/

namespace Sys2Proof.Machine

/-- and (R111). -/
def execAnd (rs rt rd : RegIdx) (_shamt : Shamt) (s : State) : Result :=
  finish rd (.ok (readReg s rs &&& readReg s rt)) s

/-- or (R112). -/
def execOr (rs rt rd : RegIdx) (_shamt : Shamt) (s : State) : Result :=
  finish rd (.ok (readReg s rs ||| readReg s rt)) s

/-- xor (R113). -/
def execXor (rs rt rd : RegIdx) (_shamt : Shamt) (s : State) : Result :=
  finish rd (.ok (readReg s rs ^^^ readReg s rt)) s

/-- nor (R114): the complement of the or. -/
def execNor (rs rt rd : RegIdx) (_shamt : Shamt) (s : State) : Result :=
  finish rd (.ok (~~~(readReg s rs ||| readReg s rt))) s

end Sys2Proof.Machine
end

