-- ==== Sys2Proof/Machine/Shifts.lean ====
section
/-! DEFINITION. The six shifts (spec/41_shifts.md): the value shifted is x[rt], the destination x[rd], the amount
the shamt field or the low five bits of x[rs] (R90). A field that an instruction does not use is an argument its
meaning ignores (R58). -/

namespace Sys2Proof.Machine

/-- sll (R91): zeros enter at bit 0. -/
def execSll (_rs rt rd : RegIdx) (shamt : Shamt) (s : State) : Result :=
  finish rd (.ok (readReg s rt <<< fieldAmount shamt)) s

/-- srl (R92): zeros enter at bit 31. -/
def execSrl (_rs rt rd : RegIdx) (shamt : Shamt) (s : State) : Result :=
  finish rd (.ok (readReg s rt >>> fieldAmount shamt)) s

/-- sra (R93): copies of bit 31 enter at bit 31. -/
def execSra (_rs rt rd : RegIdx) (shamt : Shamt) (s : State) : Result :=
  finish rd (.ok ((readReg s rt).sshiftRight (fieldAmount shamt))) s

/-- sllv (R94). -/
def execSllv (rs rt rd : RegIdx) (_shamt : Shamt) (s : State) : Result :=
  finish rd (.ok (readReg s rt <<< registerAmount (readReg s rs))) s

/-- srlv (R95). -/
def execSrlv (rs rt rd : RegIdx) (_shamt : Shamt) (s : State) : Result :=
  finish rd (.ok (readReg s rt >>> registerAmount (readReg s rs))) s

/-- srav (R96). -/
def execSrav (rs rt rd : RegIdx) (_shamt : Shamt) (s : State) : Result :=
  finish rd (.ok ((readReg s rt).sshiftRight (registerAmount (readReg s rs)))) s

end Sys2Proof.Machine
end

