-- ==== Sys2Proof/Machine/Syscall.lean ====
section
/-! DEFINITION. The syscall instruction and the syscall dispatcher (spec/45_syscall.md). -/

namespace Sys2Proof.Machine

/-- The control effects of the execution unit's contract (R71). -/
inductive ControlEffect where
  /-- the source's `Continue`: the run goes on with the next instruction -/
  | proceed
  /-- the source's `Halt`: the run ends cleanly -/
  | halt
  deriving DecidableEq, Repr

/-- The syscall dispatcher (R131): one entry, exit, numbered 10; all 32 bits of the code are compared. It never
answers `proceed`. -/
def dispatchSyscall (code : Word) : Except Fault ControlEffect :=
  if code = Config.sysExit then .ok .halt else .error (.unsupportedSyscall code)

/-- syscall (R130): register 2 holds the code; the four fields are ignored; no register is written and the pc
stays. (A `proceed` would advance the pc, R18 (a); the dispatcher's table has none.) -/
def execSyscall (_rs _rt _rd : RegIdx) (_shamt : Shamt) (s : State) : Result :=
  match dispatchSyscall (readReg s Config.v0) with
  | .ok .proceed => .next (advancePc s)
  | .ok .halt => halt s
  | .error f => raiseFault f s

end Sys2Proof.Machine
end

