-- ==== Sys2Proof/Machine/Dispatch.lean ====
section
/-! DEFINITION. The execution unit's dispatch (spec/40_execution_common.md rule R73, part 4): one arm per constructor
of `Instr`, each a direct call of that instruction's meaning. -/

namespace Sys2Proof.Machine

def exec (i : Instr) (s : State) : Host.Outcome State Fault Refusal :=
  match i with
  | .sll rs rt rd shamt => Sys2Proof.Machine.execSll rs rt rd shamt s
  | .srl rs rt rd shamt => Sys2Proof.Machine.execSrl rs rt rd shamt s
  | .sra rs rt rd shamt => Sys2Proof.Machine.execSra rs rt rd shamt s
  | .sllv rs rt rd shamt => Sys2Proof.Machine.execSllv rs rt rd shamt s
  | .srlv rs rt rd shamt => Sys2Proof.Machine.execSrlv rs rt rd shamt s
  | .srav rs rt rd shamt => Sys2Proof.Machine.execSrav rs rt rd shamt s
  | .syscall rs rt rd shamt => Sys2Proof.Machine.execSyscall rs rt rd shamt s
  | .add rs rt rd shamt => Sys2Proof.Machine.execAdd rs rt rd shamt s
  | .addu rs rt rd shamt => Sys2Proof.Machine.execAddu rs rt rd shamt s
  | .sub rs rt rd shamt => Sys2Proof.Machine.execSub rs rt rd shamt s
  | .subu rs rt rd shamt => Sys2Proof.Machine.execSubu rs rt rd shamt s
  | .and rs rt rd shamt => Sys2Proof.Machine.execAnd rs rt rd shamt s
  | .or rs rt rd shamt => Sys2Proof.Machine.execOr rs rt rd shamt s
  | .xor rs rt rd shamt => Sys2Proof.Machine.execXor rs rt rd shamt s
  | .nor rs rt rd shamt => Sys2Proof.Machine.execNor rs rt rd shamt s
  | .addi rs rt imm => Sys2Proof.Machine.execAddi rs rt imm s
  | .addiu rs rt imm => Sys2Proof.Machine.execAddiu rs rt imm s
  | .andi rs rt imm => Sys2Proof.Machine.execAndi rs rt imm s
  | .ori rs rt imm => Sys2Proof.Machine.execOri rs rt imm s
  | .xori rs rt imm => Sys2Proof.Machine.execXori rs rt imm s
  | .lui rs rt imm => Sys2Proof.Machine.execLui rs rt imm s

end Sys2Proof.Machine
end

