-- ==== Sys2Proof/Machine/Step.lean ====
section
/-! DEFINITION. One step of the machine (spec/40_execution_common.md rules R73 and R75) and the placing of a word
where the next step fetches. -/

namespace Sys2Proof.Machine

/-- One step (R73). While the run goes on: at the end of the store the run ends cleanly (R75); otherwise the word at
the pc is fetched, decoded and executed. `halted` and `faulted` are absorbing (R21): a further step does
nothing (notes/assumptions/2.md). -/
def step (s : State) : Host.Outcome State Fault Refusal :=
  match s.status with
  | .halted => .next s
  | .faulted _ => .next s
  | .running =>
    match fetch s with
    | none => halt s
    | some w =>
      match decode w with
      | .error e => raiseFault (decodeFault e) s
      | .ok i => exec i s

/-- The state whose very next step fetches and runs the instruction with table bits w: the word stands at index pc of
the instruction store (padded with zero words up to there if it was shorter) and the status is `running`, both of
which the fetch needs. It stands for the host's loading of a program (notes/assumptions/1.md). -/
def State.withFetchWord (s : State) (nbits w : Nat) : State :=
  (s.withProgram (placeWord s.program s.pc.toNat (BitVec.ofNat 32 (w % 2 ^ nbits)))).withStatus .running

end Sys2Proof.Machine
end

