-- ==== Sys2Proof/WellFormed.lean ====
section
/-! DEFINITION. Well-formedness. An INSTRUCTION has nothing to check: every field of `Instr` is as wide as its
bits in the word, so each term of `Instr` is a decoded instruction the decoder can produce (R51, R52: "The
invariant holds by construction, because every register field is 5 bits wide"; R82). In this model
"well-formed instruction" therefore means any `Instr`. What does need a check is what the host hands over at
reset (spec/70_reset_and_hazards.md rule R171): a reset whose arguments have the wrong shape is not a reset of
this hardware (spec/93_implementation_defined.md U9). -/

namespace Sys2Proof

/-- The arguments of reset, each with the value R171 gives it when the host supplies none. -/
structure ResetArgs where
  /-- `initial_registers`: 32 words, entry 0 ignored (R12, R171). -/
  registers : List Word := List.replicate 32 0
  /-- `initial_memory`: a finite partial map, given as its (address, word) pairs in any order (R30, R171). -/
  memory : List (Addr × Word) := []
  /-- `program`: the words of the instruction store, any bit patterns (R35, R171). -/
  program : List Word := []
  deriving DecidableEq, Repr

/-- `initial_registers` holds one word per register (R171). -/
def ResetArgs.registersFit (a : ResetArgs) : Bool := a.registers.length == Config.nregs

/-- `initial_memory` is a map: no address is given twice (R30, R171). -/
def ResetArgs.memoryIsMap (a : ResetArgs) : Bool := decide (a.memory.map Prod.fst).Nodup

/-- `PROG_LEN` is at most 2^32 - 1 (R2, R171). -/
def ResetArgs.programFits (a : ResetArgs) : Bool := decide (a.program.length ≤ Config.maxProgramLength)

/-- The arguments have the shapes R171 requires. -/
def ResetArgs.wellFormed (a : ResetArgs) : Bool := a.registersFit && a.memoryIsMap && a.programFits

end Sys2Proof
end

