-- ==== Sys2Proof/Machine/HostPort.lean ====
section
/-! DEFINITION. The external interfaces (spec/40_execution_common.md rule R72, spec/70_reset_and_hazards.md): reset
with its load, the run, the status output and post-run inspection. The host has no other move (R174, R175). -/

namespace Sys2Proof.Machine

/-- The state a reset with these arguments leaves (R27, R170). Nothing of an earlier run enters it. -/
def loadedState (a : ResetArgs) : State where
  regs := loadRegs a.registers
  pc := 0
  status := .running
  mem := Memory.ofCells a.memory
  program := a.program

/-- RESET-LOAD, the source's `new` (R72, R170, R171): a reset whose arguments have the wrong shape is refused
(93_implementation_defined.md U9). -/
def resetLoad (a : ResetArgs) : Result :=
  if a.wellFormed then .next (loadedState a) else .refused .malformedReset

/-- n steps of the machine. -/
def runSteps (n : Nat) (s : State) : Result := Host.Core.run Sys2Proof.core n s

/-- The source's `run` (R74, R174): the step repeated while the run goes on. At most `PROG_LEN + 1` steps are
needed, and a step of an ended run does nothing, so that many always reach the end. -/
def run (s : State) : Result := runSteps (s.program.length + 1) s

/-- The numeric code of a fault (R140). -/
def faultCode : Fault → Nat
  | .invalidOpcode _ => 1
  | .invalidFunct _ => 2
  | .integerOverflow => 3
  | .zeroRegisterWrite => 4
  | .unsupportedSyscall _ => 5

/-- The fault information word (R140): the payload, or zero where the fault has none. -/
def faultInfo : Fault → Word
  | .invalidOpcode raw => raw
  | .invalidFunct raw => raw
  | .integerOverflow => 0
  | .zeroRegisterWrite => 0
  | .unsupportedSyscall code => code

/-- STATUS: the fault code, 0 when no fault is recorded (R72, R140). -/
def statusCode (s : State) : Nat :=
  match s.status with
  | .running => 0
  | .halted => 0
  | .faulted f => faultCode f

/-- STATUS: the fault information word, zero when no fault is recorded (R72, R140). -/
def statusInfo (s : State) : Word :=
  match s.status with
  | .running => 0
  | .halted => 0
  | .faulted f => faultInfo f

/-- What the STATUS interface carries (R72). -/
structure StatusOutput where
  /-- the run status, with the fault by name -/
  status : RunStatus
  /-- the fault code, 0 for none -/
  code : Nat
  /-- the fault information word -/
  info : Word
  /-- the pc -/
  pc : Word
  deriving DecidableEq, Repr

/-- STATUS, readable at any time (R72, R176). -/
def statusOutput (s : State) : StatusOutput where
  status := s.status
  code := statusCode s
  info := statusInfo s
  pc := s.pc

/-- The answer of a port that exists only after the run (R72, R176). -/
def afterRun {α : Type} (s : State) (answer : α) : Except Refusal α :=
  match s.status with
  | .running => .error .inspectedWhileRunning
  | .halted => .ok answer
  | .faulted _ => .ok answer

/-- INSPECT of a register, index 0 answering zero (R72, R176). -/
def inspectRegister (s : State) (r : RegIdx) : Except Refusal Word := afterRun s (readReg s r)

/-- INSPECT of a data memory address: its word, or `none` for unmapped (R32, R72, R176). -/
def inspectMemory (s : State) (a : Addr) : Except Refusal (Option Word) := afterRun s (Memory.read s.mem a)

end Sys2Proof.Machine
end

