-- ==== Sys2Proof/Safety.lean ====
section
/-! DEFINITION. The terms the statements use: which register an instruction writes and which it reads (spec/10_state.md
rule R16), which fault the spec gives it (spec/60_exceptions.md rule R150), what a completed instruction
changes (rule R79), and the invariant of a sound state. None of these is used by the machine. -/

namespace Sys2Proof.Machine

/-- The destination register of the table in R16: rd of a register-type instruction, rt of an immediate-type one, none
for syscall. -/
def destOf : Instr → Option RegIdx
  | .sll _ _ rd _ | .srl _ _ rd _ | .sra _ _ rd _ => some rd
  | .sllv _ _ rd _ | .srlv _ _ rd _ | .srav _ _ rd _ => some rd
  | .add _ _ rd _ | .addu _ _ rd _ | .sub _ _ rd _ | .subu _ _ rd _ => some rd
  | .and _ _ rd _ | .or _ _ rd _ | .xor _ _ rd _ | .nor _ _ rd _ => some rd
  | .addi _ rt _ | .addiu _ rt _ | .andi _ rt _ | .ori _ rt _ | .xori _ rt _ | .lui _ rt _ => some rt
  | .syscall _ _ _ _ => none

/-- The registers read, by the table in R16. -/
def sourcesOf : Instr → List RegIdx
  | .sll _ rt _ _ | .srl _ rt _ _ | .sra _ rt _ _ => [rt]
  | .sllv rs rt _ _ | .srlv rs rt _ _ | .srav rs rt _ _ => [rt, rs]
  | .add rs rt _ _ | .addu rs rt _ _ | .sub rs rt _ _ | .subu rs rt _ _ => [rs, rt]
  | .and rs rt _ _ | .or rs rt _ _ | .xor rs rt _ _ | .nor rs rt _ _ => [rs, rt]
  | .addi rs _ _ | .addiu rs _ _ | .andi rs _ _ | .ori rs _ _ | .xori rs _ _ => [rs]
  | .lui _ _ _ => []
  | .syscall _ _ _ _ => [2]

/-- The exact signed result of a checked instruction, none for the others (R101, R103, R120, R143). -/
def exactSigned (i : Instr) (s : State) : Option Int :=
  match i with
  | .add rs rt _ _ => some (readSigned s rs + readSigned s rt)
  | .sub rs rt _ _ => some (readSigned s rs - readSigned s rt)
  | .addi rs _ imm => some (readSigned s rs + imm.toInt)
  | .sll .. | .srl .. | .sra .. | .sllv .. | .srlv .. | .srav .. | .syscall .. => none
  | .addu .. | .subu .. | .and .. | .or .. | .xor .. | .nor .. => none
  | .addiu .. | .andi .. | .ori .. | .xori .. | .lui .. => none

/-- The exact signed result does not fit in 32 bits (R143). -/
def overflows (i : Instr) (s : State) : Bool :=
  match exactSigned i s with
  | some t => decide (t < -2147483648 ∨ 2147483647 < t)
  | none => false

/-- The fault of a decoded instruction by the order of R150: destination 0, then overflow, then the syscall code. -/
def expectedFault (i : Instr) (s : State) : Option Fault :=
  match destOf i with
  | some d =>
    if d = 0 then some .zeroRegisterWrite else if overflows i s then some .integerOverflow else none
  | none => if readReg s 2 = 10 then none else some (.unsupportedSyscall (readReg s 2))

/-- The fault of a fetched word by the order of R150: a decode error first. -/
def wordFault (w : Word) (s : State) : Option Fault :=
  match decode w with
  | .error (.invalidOpcode raw) => some (.invalidOpcode raw)
  | .error (.invalidFunct raw) => some (.invalidFunct raw)
  | .ok i => expectedFault i s

/-- What an instruction that completes leaves (R18 (a), R78, R79): the destination d holds v, and everything else but
the pc is as before. -/
structure Completes (s : State) (d : RegIdx) (v : Word) (t : State) : Prop where
  /-- the destination holds the result -/
  dest : readReg t d = v
  /-- every other register is unchanged -/
  others : ∀ r, r ≠ d → readReg t r = readReg s r
  /-- the pc counts one instruction on -/
  pc : t.pc = s.pc + 1
  /-- the run status, and with it the recorded fault, is unchanged -/
  status : t.status = s.status
  /-- every data memory cell is unchanged, the unmapped ones too -/
  cells : ∀ a, t.mem.read a = s.mem.read a
  /-- the data memory is the same data -/
  mem : t.mem = s.mem
  /-- the instruction store is unchanged -/
  program : t.program = s.program

/-- The words of a register-type operation are exactly those of opcode 0 and this funct, with their fields in place
(R47, R53). -/
def RegisterEncoding (funct : BitVec 6) (make : RegIdx → RegIdx → RegIdx → Shamt → Instr) : Prop :=
  ∀ w, (opcodeOf w = 0 ∧ functOf w = funct) ↔ decode w = .ok (make (rsOf w) (rtOf w) (rdOf w) (shamtOf w))

/-- The words of an immediate-type operation are exactly those of this opcode, with their fields in place (R48, R54). -/
def ImmediateEncoding (opcode : BitVec 6) (make : RegIdx → RegIdx → Imm16 → Instr) : Prop :=
  ∀ w, opcodeOf w = opcode ↔ decode w = .ok (make (rsOf w) (rtOf w) (immOf w))

/-- The opcodes that decode to something or dispatch on funct (R53, R54). -/
def knownOpcodes : List (BitVec 6) := [0x00, 0x08, 0x09, 0x0C, 0x0D, 0x0E, 0x0F]

/-- The functs of the register-type table (R53). -/
def knownFuncts : List (BitVec 6) :=
  [0x00, 0x02, 0x03, 0x04, 0x06, 0x07, 0x0C, 0x20, 0x21, 0x22, 0x23, 0x24, 0x25, 0x26, 0x27]

/-- The bits of a word that its operation uses: those the decoder tests and the fields R58 does not list as ignored. -/
def usedBits : Op → Word
  | .sll | .srl | .sra => 0xFC1FFFFF
  | .sllv | .srlv | .srav | .add | .addu | .sub | .subu | .and | .or | .xor | .nor => 0xFFFFF83F
  | .syscall => 0xFC00003F
  | .addi | .addiu | .andi | .ori | .xori => 0xFFFFFFFF
  | .lui => 0xFC1FFFFF

/-- The exit syscall stands at the pc and register 2 holds the exit code (R76, first way). -/
def AtExit (s : State) : Prop :=
  ∃ w rs rt rd shamt, s.program[s.pc.toNat]? = some w ∧ decode w = .ok (.syscall rs rt rd shamt) ∧ readReg s 2 = 10

/-- The pc is the index one past the last instruction (R76, second way). -/
def AtEnd (s : State) : Prop := s.pc.toNat = s.program.length

/-- The word at the pc gives this fault in this state (R76, third way). -/
def AtFault (s : State) (f : Fault) : Prop := ∃ w, s.program[s.pc.toNat]? = some w ∧ wordFault w s = some f

/-- A sound state: what holds in every state that a run reaches. The ended statuses explain themselves: what a halted
or faulted state says of its end can be read off the instruction its pc stands on (R18 (b), (c), R76, R146). -/
structure Sound (s : State) : Prop where
  /-- the data memory is in canonical form (R30) -/
  memory : s.mem.wf = true
  /-- `PROG_LEN` is at most 2^32 - 1 (R2) -/
  store : s.program.length ≤ 4294967295
  /-- the pc is an index of the store or one past its end (R19) -/
  pc : s.pc.toNat ≤ s.program.length
  /-- a clean end stands at an exit syscall or at the end of the store -/
  halted : s.status = .halted → AtExit s ∨ AtEnd s
  /-- a recorded fault is the one that the instruction at the pc raises -/
  faulted : ∀ f, s.status = .faulted f → AtFault s f

end Sys2Proof.Machine
end

