-- ==== Sys2Proof/Certificates/Slice0/Obligations.lean ====
section
/-! DEFINITION. The statements for the provers, from the numbered rules of spec/. OBLIGATIONS.json lists them. -/

open Sys2Proof Sys2Proof.Machine

/-- The decode vectors D1 to D3, D5 to D9, D12 and D21 and the example word of R114. The numeric values rest on the
spec's own decision D1. -/
def Obligations.WrittenOutWordsDecode : Prop :=
  decode 0x00000000 = .ok (.sll 0 0 0 0) ∧
  decode 0x0000000C = .ok (.syscall 0 0 0 0) ∧
  decode 0x03FFFFCC = .ok (.syscall 31 31 31 31) ∧
  decode 0x00084900 = .ok (.sll 0 8 9 4) ∧
  decode 0x014B4804 = .ok (.sllv 10 11 9 0) ∧
  decode 0x012A4020 = .ok (.add 9 10 8 0) ∧
  decode 0x01095027 = .ok (.nor 8 9 10 0) ∧
  decode 0x2109FFFF = .ok (.addi 8 9 0xFFFF) ∧
  decode 0x3FE91234 = .ok (.lui 31 9 0x1234) ∧
  decode 0xFC000000 = .error (.invalidOpcode 0xFC000000) ∧
  decode 0x03E00008 = .error (.invalidFunct 0x03E00008)

/-- The first half of the round trip that 30_encoding.md section 8 derives: "decode(encode(d)) = d for every decoded
instruction d". -/
def Obligations.DecodeInvertsEncode : Prop :=
  ∀ i : Instr, decode (encode i) = .ok i

/-- The second half of the round trip of 30_encoding.md section 8: "encode(decode(w)) = w for every word w that
decodes". -/
def Obligations.EncodeInvertsDecode : Prop :=
  ∀ (w : Word) (i : Instr), decode w = .ok i → encode i = w

/-- The encoding formulas of 30_encoding.md section 8. They place every field independently of the decoder. -/
def Obligations.EncodeLaysOutFields : Prop :=
  (∀ (rs rt rd : RegIdx) (shamt : Shamt), ∀ p ∈
    ([(encode (.sll rs rt rd shamt), 0x00),
      (encode (.srl rs rt rd shamt), 0x02),
      (encode (.sra rs rt rd shamt), 0x03),
      (encode (.sllv rs rt rd shamt), 0x04),
      (encode (.srlv rs rt rd shamt), 0x06),
      (encode (.srav rs rt rd shamt), 0x07),
      (encode (.syscall rs rt rd shamt), 0x0C),
      (encode (.add rs rt rd shamt), 0x20),
      (encode (.addu rs rt rd shamt), 0x21),
      (encode (.sub rs rt rd shamt), 0x22),
      (encode (.subu rs rt rd shamt), 0x23),
      (encode (.and rs rt rd shamt), 0x24),
      (encode (.or rs rt rd shamt), 0x25),
      (encode (.xor rs rt rd shamt), 0x26),
      (encode (.nor rs rt rd shamt), 0x27)] : List (Word × Nat)),
    p.1.toNat = rs.toNat * 2 ^ 21 + rt.toNat * 2 ^ 16 + rd.toNat * 2 ^ 11 + shamt.toNat * 2 ^ 6 + p.2) ∧
  (∀ (rs rt : RegIdx) (imm : Imm16), ∀ p ∈
    ([(encode (.addi rs rt imm), 0x08),
      (encode (.addiu rs rt imm), 0x09),
      (encode (.andi rs rt imm), 0x0C),
      (encode (.ori rs rt imm), 0x0D),
      (encode (.xori rs rt imm), 0x0E),
      (encode (.lui rs rt imm), 0x0F)] : List (Word × Nat)),
    p.1.toNat = p.2 * 2 ^ 26 + rs.toNat * 2 ^ 21 + rt.toNat * 2 ^ 16 + imm.toNat)

/-- R55. The table of opcodes rests on the spec's own decision D1, the payload on D13. -/
def Obligations.InvalidOpcodeExactlyOutsideTable : Prop :=
  (∀ w : Word, decode w = .error (.invalidOpcode w) ↔ opcodeOf w ∉ knownOpcodes) ∧
  (∀ w raw : Word, decode w = .error (.invalidOpcode raw) → raw = w) ∧
  ((List.range 64).filter fun n => decide (BitVec.ofNat 6 n ∉ knownOpcodes)).length = 57

/-- R56. The table of functs rests on the spec's own decision D1, the payload on D13. -/
def Obligations.InvalidFunctExactlyOutsideTable : Prop :=
  (∀ w : Word, decode w = .error (.invalidFunct w) ↔ opcodeOf w = 0 ∧ functOf w ∉ knownFuncts) ∧
  (∀ w raw : Word, decode w = .error (.invalidFunct raw) → raw = w) ∧
  ((List.range 64).filter fun n => decide (BitVec.ofNat 6 n ∉ knownFuncts)).length = 49

/-- The match and mask table of 30_encoding.md section 5: "a word w is the instruction exactly when w & mask =
match". Its numbers rest on the spec's own decision D1. -/
def Obligations.MaskAndMatchSelectOperation : Prop :=
  ∀ (o : Op) (w : Word), (∃ i, decode w = .ok i ∧ i.op = o) ↔ w &&& opMask o = opMatch o

/-- The table of ignored bits in 30_encoding.md section 6, as property 8 of 95_test_vectors.md section 10 states it. -/
def Obligations.IgnoredBitsChangeNothing : Prop :=
  ∀ (w w' : Word) (i : Instr), decode w = .ok i → w &&& usedBits i.op = w' &&& usedBits i.op →
    ∃ i', decode w' = .ok i' ∧ i'.op = i.op ∧ ∀ s, exec i' s = exec i s

/-- R91 (with R90 (a), (b)). Operand roles rest on the spec's own decision D3; the funct value 0 is the source's. -/
def Obligations.SllShiftsLeftByField : Prop :=
  RegisterEncoding 0x00 Instr.sll ∧
  ∀ (rs rt rd : RegIdx) (shamt : Shamt) (s : State),
    (rd ≠ 0 → ∃ t, exec (.sll rs rt rd shamt) s = .next t ∧
      Completes s rd (BitVec.ofNat 32 (readUnsigned s rt * 2 ^ shamt.toNat)) t) ∧
    (rd = 0 → exec (.sll rs rt rd shamt) s = .next (s.withStatus (.faulted .zeroRegisterWrite)))

/-- R92 (with R90 (a), (b)). Operand roles rest on the spec's own decision D3, the funct value on D1. -/
def Obligations.SrlShiftsRightByField : Prop :=
  RegisterEncoding 0x02 Instr.srl ∧
  ∀ (rs rt rd : RegIdx) (shamt : Shamt) (s : State),
    (rd ≠ 0 → ∃ t, exec (.srl rs rt rd shamt) s = .next t ∧
      Completes s rd (BitVec.ofNat 32 (readUnsigned s rt / 2 ^ shamt.toNat)) t) ∧
    (rd = 0 → exec (.srl rs rt rd shamt) s = .next (s.withStatus (.faulted .zeroRegisterWrite)))

/-- R93 (with R90 (a), (b)); the division of Int by a positive number is the floor. Operand roles rest on the spec's
own decision D3, the funct value on D1. That sign copies enter is decision D30. -/
def Obligations.SraDividesSignedByField : Prop :=
  RegisterEncoding 0x03 Instr.sra ∧
  ∀ (rs rt rd : RegIdx) (shamt : Shamt) (s : State),
    (rd ≠ 0 → ∃ t, exec (.sra rs rt rd shamt) s = .next t ∧
      Completes s rd (BitVec.ofInt 32 (readSigned s rt / 2 ^ shamt.toNat)) t) ∧
    (rd = 0 → exec (.sra rs rt rd shamt) s = .next (s.withStatus (.faulted .zeroRegisterWrite)))

/-- R94 (with R90 (a), (c)). Operand roles rest on the spec's own decision D3, the funct value on D1. The mask to
five bits is decision D4. -/
def Obligations.SllvShiftsLeftByRegister : Prop :=
  RegisterEncoding 0x04 Instr.sllv ∧
  ∀ (rs rt rd : RegIdx) (shamt : Shamt) (s : State),
    (rd ≠ 0 → ∃ t, exec (.sllv rs rt rd shamt) s = .next t ∧
      Completes s rd (BitVec.ofNat 32 (readUnsigned s rt * 2 ^ (readUnsigned s rs % 32))) t) ∧
    (rd = 0 → exec (.sllv rs rt rd shamt) s = .next (s.withStatus (.faulted .zeroRegisterWrite)))

/-- R95 (with R90 (a), (c)). Operand roles rest on the spec's own decision D3, the funct value on D1. The mask to
five bits is decision D4. -/
def Obligations.SrlvShiftsRightByRegister : Prop :=
  RegisterEncoding 0x06 Instr.srlv ∧
  ∀ (rs rt rd : RegIdx) (shamt : Shamt) (s : State),
    (rd ≠ 0 → ∃ t, exec (.srlv rs rt rd shamt) s = .next t ∧
      Completes s rd (BitVec.ofNat 32 (readUnsigned s rt / 2 ^ (readUnsigned s rs % 32))) t) ∧
    (rd = 0 → exec (.srlv rs rt rd shamt) s = .next (s.withStatus (.faulted .zeroRegisterWrite)))

/-- R96 (with R90 (a), (c)). Operand roles rest on the spec's own decision D3, the funct value on D1. The mask to
five bits is decision D4. That sign copies enter is decision D30. -/
def Obligations.SravDividesSignedByRegister : Prop :=
  RegisterEncoding 0x07 Instr.srav ∧
  ∀ (rs rt rd : RegIdx) (shamt : Shamt) (s : State),
    (rd ≠ 0 → ∃ t, exec (.srav rs rt rd shamt) s = .next t ∧
      Completes s rd (BitVec.ofInt 32 (readSigned s rt / 2 ^ (readUnsigned s rs % 32))) t) ∧
    (rd = 0 → exec (.srav rs rt rd shamt) s = .next (s.withStatus (.faulted .zeroRegisterWrite)))

/-- R130. The funct value rests on the spec's own decision D1, the 32-bit comparison on D31, the absent destination
check on D8. -/
def Obligations.SyscallExitsOrFaults : Prop :=
  RegisterEncoding 0x0C Instr.syscall ∧
  ∀ (rs rt rd : RegIdx) (shamt : Shamt) (s : State),
    (readUnsigned s 2 = 10 → exec (.syscall rs rt rd shamt) s = .next (s.withStatus .halted)) ∧
    (readUnsigned s 2 ≠ 10 →
      exec (.syscall rs rt rd shamt) s = .next (s.withStatus (.faulted (.unsupportedSyscall (readReg s 2)))))

/-- R101 (with R100). That rs is the first operand is the spec's own decision D2, the funct value D1. The unchanged
destination is decision D10, the order of the checks D9. -/
def Obligations.AddChecksSignedSum : Prop :=
  RegisterEncoding 0x20 Instr.add ∧
  ∀ (rs rt rd : RegIdx) (shamt : Shamt) (s : State),
    (rd ≠ 0 → ¬ (readSigned s rs + readSigned s rt < -2147483648 ∨ 2147483647 < readSigned s rs + readSigned s rt) → ∃ t, exec (.add rs rt rd shamt) s = .next t ∧
      Completes s rd (BitVec.ofInt 32 (readSigned s rs + readSigned s rt)) t) ∧
    (rd ≠ 0 → (readSigned s rs + readSigned s rt < -2147483648 ∨ 2147483647 < readSigned s rs + readSigned s rt) →
      exec (.add rs rt rd shamt) s = .next (s.withStatus (.faulted .integerOverflow))) ∧
    (rd = 0 → exec (.add rs rt rd shamt) s = .next (s.withStatus (.faulted .zeroRegisterWrite)))

/-- R102 (with R100). That rs is the first operand is the spec's own decision D2, the funct value D1. -/
def Obligations.AdduWrapsSum : Prop :=
  RegisterEncoding 0x21 Instr.addu ∧
  ∀ (rs rt rd : RegIdx) (shamt : Shamt) (s : State),
    (rd ≠ 0 → ∃ t, exec (.addu rs rt rd shamt) s = .next t ∧
      Completes s rd (BitVec.ofNat 32 (readUnsigned s rs + readUnsigned s rt)) t) ∧
    (rd = 0 → exec (.addu rs rt rd shamt) s = .next (s.withStatus (.faulted .zeroRegisterWrite)))

/-- R103 (with R100). That rs is the first operand is the spec's own decision D2, the funct value D1. The unchanged
destination is decision D10, the order of the checks D9. -/
def Obligations.SubChecksSignedDifference : Prop :=
  RegisterEncoding 0x22 Instr.sub ∧
  ∀ (rs rt rd : RegIdx) (shamt : Shamt) (s : State),
    (rd ≠ 0 → ¬ (readSigned s rs - readSigned s rt < -2147483648 ∨ 2147483647 < readSigned s rs - readSigned s rt) → ∃ t, exec (.sub rs rt rd shamt) s = .next t ∧
      Completes s rd (BitVec.ofInt 32 (readSigned s rs - readSigned s rt)) t) ∧
    (rd ≠ 0 → (readSigned s rs - readSigned s rt < -2147483648 ∨ 2147483647 < readSigned s rs - readSigned s rt) →
      exec (.sub rs rt rd shamt) s = .next (s.withStatus (.faulted .integerOverflow))) ∧
    (rd = 0 → exec (.sub rs rt rd shamt) s = .next (s.withStatus (.faulted .zeroRegisterWrite)))

/-- R104 (with R100). That rs is the first operand is the spec's own decision D2, the funct value D1. -/
def Obligations.SubuWrapsDifference : Prop :=
  RegisterEncoding 0x23 Instr.subu ∧
  ∀ (rs rt rd : RegIdx) (shamt : Shamt) (s : State),
    (rd ≠ 0 → ∃ t, exec (.subu rs rt rd shamt) s = .next t ∧
      Completes s rd (BitVec.ofInt 32 ((readUnsigned s rs : Int) - (readUnsigned s rt : Int))) t) ∧
    (rd = 0 → exec (.subu rs rt rd shamt) s = .next (s.withStatus (.faulted .zeroRegisterWrite)))

/-- R111 (with R110). The funct value rests on the spec's own decision D1, the operand fields on D2. -/
def Obligations.AndCombinesBits : Prop :=
  RegisterEncoding 0x24 Instr.and ∧
  ∀ (rs rt rd : RegIdx) (shamt : Shamt) (s : State),
    (rd ≠ 0 → ∃ t v, exec (.and rs rt rd shamt) s = .next t ∧ Completes s rd v t ∧
      ∀ k < 32, v.getLsbD k = ((readReg s rs).getLsbD k && (readReg s rt).getLsbD k)) ∧
    (rd = 0 → exec (.and rs rt rd shamt) s = .next (s.withStatus (.faulted .zeroRegisterWrite)))

/-- R112 (with R110). The funct value rests on the spec's own decision D1, the operand fields on D2. -/
def Obligations.OrCombinesBits : Prop :=
  RegisterEncoding 0x25 Instr.or ∧
  ∀ (rs rt rd : RegIdx) (shamt : Shamt) (s : State),
    (rd ≠ 0 → ∃ t v, exec (.or rs rt rd shamt) s = .next t ∧ Completes s rd v t ∧
      ∀ k < 32, v.getLsbD k = ((readReg s rs).getLsbD k || (readReg s rt).getLsbD k)) ∧
    (rd = 0 → exec (.or rs rt rd shamt) s = .next (s.withStatus (.faulted .zeroRegisterWrite)))

/-- R113 (with R110). The funct value rests on the spec's own decision D1, the operand fields on D2. -/
def Obligations.XorCombinesBits : Prop :=
  RegisterEncoding 0x26 Instr.xor ∧
  ∀ (rs rt rd : RegIdx) (shamt : Shamt) (s : State),
    (rd ≠ 0 → ∃ t v, exec (.xor rs rt rd shamt) s = .next t ∧ Completes s rd v t ∧
      ∀ k < 32, v.getLsbD k = Bool.xor ((readReg s rs).getLsbD k) ((readReg s rt).getLsbD k)) ∧
    (rd = 0 → exec (.xor rs rt rd shamt) s = .next (s.withStatus (.faulted .zeroRegisterWrite)))

/-- R114 (with R110). The funct value rests on the spec's own decision D1, the operand fields on D2. The meaning of
the name is the spec's own (93_implementation_defined.md G7). -/
def Obligations.NorSetsBitsClearInBoth : Prop :=
  RegisterEncoding 0x27 Instr.nor ∧
  ∀ (rs rt rd : RegIdx) (shamt : Shamt) (s : State),
    (rd ≠ 0 → ∃ t v, exec (.nor rs rt rd shamt) s = .next t ∧ Completes s rd v t ∧
      ∀ k < 32, v.getLsbD k = (!(readReg s rs).getLsbD k && !(readReg s rt).getLsbD k)) ∧
    (rd = 0 → exec (.nor rs rt rd shamt) s = .next (s.withStatus (.faulted .zeroRegisterWrite)))

/-- R120 (with R49, R126). The opcode value rests on the spec's own decision D1, the destination rt on D5. The
unchanged destination is decision D10, the order of the checks D9. -/
def Obligations.AddiChecksSignedSum : Prop :=
  ImmediateEncoding 0x08 Instr.addi ∧
  ∀ (rs rt : RegIdx) (imm : Imm16) (s : State),
    (rt ≠ 0 → ¬ (readSigned s rs + imm.toInt < -2147483648 ∨ 2147483647 < readSigned s rs + imm.toInt) → ∃ t, exec (.addi rs rt imm) s = .next t ∧
      Completes s rt (BitVec.ofInt 32 (readSigned s rs + imm.toInt)) t) ∧
    (rt ≠ 0 → (readSigned s rs + imm.toInt < -2147483648 ∨ 2147483647 < readSigned s rs + imm.toInt) →
      exec (.addi rs rt imm) s = .next (s.withStatus (.faulted .integerOverflow))) ∧
    (rt = 0 → exec (.addi rs rt imm) s = .next (s.withStatus (.faulted .zeroRegisterWrite)))

/-- R121 (with R49, R126). The opcode value rests on the spec's own decision D1, the destination rt on D5. That it
never faults is decision D6 (90_conflicts.md C1). -/
def Obligations.AddiuWrapsSignExtendedSum : Prop :=
  ImmediateEncoding 0x09 Instr.addiu ∧
  ∀ (rs rt : RegIdx) (imm : Imm16) (s : State),
    (rt ≠ 0 → ∃ t, exec (.addiu rs rt imm) s = .next t ∧
      Completes s rt (BitVec.ofInt 32 (readSigned s rs + imm.toInt)) t) ∧
    (rt = 0 → exec (.addiu rs rt imm) s = .next (s.withStatus (.faulted .zeroRegisterWrite)))

/-- R122 (with R49, R126). The opcode value rests on the spec's own decision D1, the destination rt on D5. -/
def Obligations.AndiMasksWithZeroExtended : Prop :=
  ImmediateEncoding 0x0C Instr.andi ∧
  ∀ (rs rt : RegIdx) (imm : Imm16) (s : State),
    (rt ≠ 0 → ∃ t, exec (.andi rs rt imm) s = .next t ∧
      Completes s rt (readReg s rs &&& BitVec.ofNat 32 imm.toNat) t) ∧
    (rt = 0 → exec (.andi rs rt imm) s = .next (s.withStatus (.faulted .zeroRegisterWrite)))

/-- R123 (with R49, R126). The opcode value rests on the spec's own decision D1, the destination rt on D5. -/
def Obligations.OriSetsWithZeroExtended : Prop :=
  ImmediateEncoding 0x0D Instr.ori ∧
  ∀ (rs rt : RegIdx) (imm : Imm16) (s : State),
    (rt ≠ 0 → ∃ t, exec (.ori rs rt imm) s = .next t ∧
      Completes s rt (readReg s rs ||| BitVec.ofNat 32 imm.toNat) t) ∧
    (rt = 0 → exec (.ori rs rt imm) s = .next (s.withStatus (.faulted .zeroRegisterWrite)))

/-- R124 (with R49, R126). The opcode value rests on the spec's own decision D1, the destination rt on D5. -/
def Obligations.XoriFlipsWithZeroExtended : Prop :=
  ImmediateEncoding 0x0E Instr.xori ∧
  ∀ (rs rt : RegIdx) (imm : Imm16) (s : State),
    (rt ≠ 0 → ∃ t, exec (.xori rs rt imm) s = .next t ∧
      Completes s rt (readReg s rs ^^^ BitVec.ofNat 32 imm.toNat) t) ∧
    (rt = 0 → exec (.xori rs rt imm) s = .next (s.withStatus (.faulted .zeroRegisterWrite)))

/-- R125 (with R49, R126). The opcode value rests on the spec's own decision D1, the destination rt on D5. -/
def Obligations.LuiWritesUpperHalf : Prop :=
  ImmediateEncoding 0x0F Instr.lui ∧
  ∀ (rs rt : RegIdx) (imm : Imm16) (s : State),
    (rt ≠ 0 → ∃ t, exec (.lui rs rt imm) s = .next t ∧
      Completes s rt (BitVec.ofNat 32 (imm.toNat * 65536)) t) ∧
    (rt = 0 → exec (.lui rs rt imm) s = .next (s.withStatus (.faulted .zeroRegisterWrite)))

/-- R12. That the read port forces zero against a careless host is the spec's own decision D23. -/
def Obligations.RegisterZeroReadsZero : Prop :=
  (∀ s : State, readReg s 0 = 0 ∧ readUnsigned s 0 = 0 ∧ readSigned s 0 = 0) ∧
  (∀ a : ResetArgs, readReg (loadedState a) 0 = 0) ∧
  (∀ s : State, s.status ≠ .running → inspectRegister s 0 = .ok 0)

/-- R14. -/
def Obligations.WriteGuardProtectsRegisterZero : Prop :=
  ∀ (s : State) (r : RegIdx) (v : Word),
    (r = 0 → writeReg s r v = .error .zeroRegisterWrite) ∧
    (r ≠ 0 → ∃ t, writeReg s r v = .ok t ∧ readReg t r = v ∧ (∀ q, q ≠ r → readReg t q = readReg s q) ∧
      t.pc = s.pc ∧ t.status = s.status ∧ t.mem = s.mem ∧ t.program = s.program)

/-- R15. -/
def Obligations.RegisterChangesOnlyByItsInstruction : Prop :=
  (∀ (s : State) (r : RegIdx) (v : Word), r ≠ 0 →
    ∃ t, writeReg s r v = .ok t ∧ readUnsigned t r = v.toNat ∧ readSigned t r = v.toInt) ∧
  (∀ (s t : State) (r : RegIdx), step s = .next t → readReg t r ≠ readReg s r →
    s.status = .running ∧ t.status = .running ∧ r ≠ 0 ∧
      ∃ w i, s.program[s.pc.toNat]? = some w ∧ decode w = .ok i ∧ destOf i = some r)

/-- The table of 10_state.md section 1 (rule R16). Its operand fields are the spec's own decisions D2, D3 and D5. -/
def Obligations.InstructionReadsAndWritesOnlyItsRegisters : Prop :=
  (∀ (i : Instr) (s s' t : State), s.status = .running → s'.status = .running →
    (∀ r ∈ sourcesOf i, readReg s r = readReg s' r) → exec i s = .next t →
    ∃ t', exec i s' = .next t' ∧ t'.status = t.status ∧
      (t.status = .running → ∀ d, destOf i = some d → readReg t' d = readReg t d)) ∧
  (∀ (i : Instr) (s t : State) (r : RegIdx), exec i s = .next t → destOf i ≠ some r → readReg t r = readReg s r)

/-- The step of 40_execution_common.md section 2 (rule R73), parts 2 to 4. Every term of Instr is well-formed. -/
def Obligations.StepExecutesDecodedInstruction : Prop :=
  ∀ (s : State) (w : Word) (i : Instr), s.status = .running → s.program[s.pc.toNat]? = some w →
    decode w = .ok i → step s = exec i s

/-- R141 and R142. The payload is the spec's own decision D13, the tables D1. -/
def Obligations.UndecodableWordTakesDecodeFault : Prop :=
  ∀ (s : State) (w : Word), s.status = .running → s.program[s.pc.toNat]? = some w →
    (opcodeOf w ∉ knownOpcodes → step s = .next (s.withStatus (.faulted (.invalidOpcode w)))) ∧
    (opcodeOf w = 0 → functOf w ∉ knownFuncts → step s = .next (s.withStatus (.faulted (.invalidFunct w))))

/-- R75. -/
def Obligations.StepPastEndHaltsCleanly : Prop :=
  (∀ s : State, s.status = .running → s.program.length ≤ s.pc.toNat → step s = .next (s.withStatus .halted)) ∧
  (∀ a : ResetArgs, a.wellFormed = true → a.program = [] →
    run (loadedState a) = .next ((loadedState a).withStatus .halted) ∧ (loadedState a).pc = 0) ∧
  (∀ s : State, Sound s → s.program.length ≤ s.pc.toNat → s.pc.toNat = s.program.length)

/-- 10_state.md section 3 (rule R21): "Halted and Faulted(f) are absorbing"; 95_test_vectors.md section 8: "a
further step does nothing". The stutter is the model's choice, notes/assumptions/2.md. -/
def Obligations.EndedRunStaysEnded : Prop :=
  (∀ a : ResetArgs, (loadedState a).status = .running) ∧
  (∀ (n : Nat) (s : State), s.status ≠ .running → runSteps n s = .next s)

/-- 40_execution_common.md section 5 (rule R83): the step function "has an outcome in every `Running` state" and
there is no stuck state. That a step of an ended run answers next is the model's choice, notes/assumptions/2.md,
and exec in a state that is not running is notes/assumptions/12.md. -/
def Obligations.EveryStepAnswersNext : Prop :=
  (∀ s : State, ∃ t, step s = .next t) ∧ (∀ (i : Instr) (s : State), ∃ t, exec i s = .next t)

/-- R18. That a fault leaves the pc is the spec's own decision D10 (90_conflicts.md C4). -/
def Obligations.PcMovesByOneOrStays : Prop :=
  ∀ s t : State, s.program.length ≤ 4294967295 → s.status = .running → step s = .next t →
    (t.status = .running → t.pc.toNat = s.pc.toNat + 1) ∧
    (t.status ≠ .running → t.pc = s.pc) ∧
    (t.status = .halted → AtExit s ∨ s.program.length ≤ s.pc.toNat) ∧
    (s.program.length ≤ s.pc.toNat → t = s.withStatus .halted)

/-- R79 and R146. That a fault changes no register and not the pc is the spec's own decision D10 (90_conflicts.md
C3, C4). -/
def Obligations.CommitIsAllOrNothing : Prop :=
  ∀ s t : State, s.status = .running → step s = .next t →
    (t.status = .running → ∃ w i d v, s.program[s.pc.toNat]? = some w ∧ decode w = .ok i ∧ destOf i = some d ∧
      d ≠ 0 ∧ Completes s d v t) ∧
    (t.status = .halted → t = s.withStatus .halted) ∧
    (∀ f, t.status = .faulted f → t = s.withStatus (.faulted f))

/-- R150 and its table of every combination. The order of the second and third rank is the spec's own decision D9,
the exemption of syscall D8. -/
def Obligations.StepTakesFirstFaultInOrder : Prop :=
  ∀ (s : State) (w : Word), s.status = .running → s.program[s.pc.toNat]? = some w →
    (∀ f, wordFault w s = some f → step s = .next (s.withStatus (.faulted f))) ∧
    (wordFault w s = none →
      (∃ i d v t, decode w = .ok i ∧ destOf i = some d ∧ step s = .next t ∧ Completes s d v t) ∨
      (AtExit s ∧ step s = .next (s.withStatus .halted)))

/-- R143. -/
def Obligations.OverflowRaisedExactlyByCheckedForms : Prop :=
  ∀ (i : Instr) (s : State), s.status = .running →
    (exec i s = .next (s.withStatus (.faulted .integerOverflow)) ↔
      ∃ rs d : RegIdx, d ≠ 0 ∧ ∃ x : Int, (x < -2147483648 ∨ 2147483647 < x) ∧
        ((∃ rt shamt, i = .add rs rt d shamt ∧ x = readSigned s rs + readSigned s rt) ∨
         (∃ rt shamt, i = .sub rs rt d shamt ∧ x = readSigned s rs - readSigned s rt) ∨
         (∃ imm, i = .addi rs d imm ∧ x = readSigned s rs + imm.toInt)))

/-- R144. The exemption of syscall is the spec's own decision D8. -/
def Obligations.ZeroWriteRaisedExactlyForDestinationZero : Prop :=
  (∀ (i : Instr) (s : State), s.status = .running →
    (exec i s = .next (s.withStatus (.faulted .zeroRegisterWrite)) ↔ destOf i = some 0)) ∧
  (∀ (rs rt rd : RegIdx) (shamt : Shamt), destOf (.syscall rs rt rd shamt) = none)

/-- The table of 45_syscall.md section 2 (rule R131); that no code gives Continue is the spec's own inference there. -/
def Obligations.SyscallDispatcherHasOneEntry : Prop :=
  ∀ c : Word,
    (c.toNat = 10 → dispatchSyscall c = .ok .halt) ∧
    (c.toNat ≠ 10 → dispatchSyscall c = .error (.unsupportedSyscall c)) ∧
    dispatchSyscall c ≠ .ok .proceed

/-- The table of 60_exceptions.md section 1 (rule R140); the codes are the spec's own decision D14. -/
def Obligations.StatusPortReportsCodesAndPayloads : Prop :=
  ∀ (s : State) (w : Word),
    (statusCode (s.withStatus .running) = 0 ∧ statusInfo (s.withStatus .running) = 0) ∧
    (statusCode (s.withStatus .halted) = 0 ∧ statusInfo (s.withStatus .halted) = 0) ∧
    (statusCode (s.withStatus (.faulted (.invalidOpcode w))) = 1 ∧
      statusInfo (s.withStatus (.faulted (.invalidOpcode w))) = w) ∧
    (statusCode (s.withStatus (.faulted (.invalidFunct w))) = 2 ∧
      statusInfo (s.withStatus (.faulted (.invalidFunct w))) = w) ∧
    (statusCode (s.withStatus (.faulted .integerOverflow)) = 3 ∧
      statusInfo (s.withStatus (.faulted .integerOverflow)) = 0) ∧
    (statusCode (s.withStatus (.faulted .zeroRegisterWrite)) = 4 ∧
      statusInfo (s.withStatus (.faulted .zeroRegisterWrite)) = 0) ∧
    (statusCode (s.withStatus (.faulted (.unsupportedSyscall w))) = 5 ∧
      statusInfo (s.withStatus (.faulted (.unsupportedSyscall w))) = w)

/-- 20_memory.md section 1 (rule R33): "No instruction reads data memory and no instruction writes it." That the
memory equals initial_memory at every point of a run is the spec's own inference there. In an ended state both
clauses rest on notes/assumptions/2.md. -/
def Obligations.DataMemoryIsNeverTouched : Prop :=
  (∀ s t : State, step s = .next t → t.mem = s.mem ∧ ∀ m, step (s.withMem m) = .next (t.withMem m)) ∧
  (∀ (a : ResetArgs) (n : Nat) (t : State), a.wellFormed = true → runSteps n (loadedState a) = .next t →
    ∀ (x : Addr) (v : Word), t.mem.read x = some v ↔ (x, v) ∈ a.memory)

/-- 70_reset_and_hazards.md section 1 (rule R171): an invalid word "faults when the pc reaches it and not before";
20_memory.md section 2 (rule R36). In an ended state it rests on notes/assumptions/2.md. -/
def Obligations.OnlyTheWordAtThePcMatters : Prop :=
  ∀ (s t : State) (p : List Word), p[s.pc.toNat]? = s.program[s.pc.toNat]? → step s = .next t →
    step (s.withProgram p) = .next (t.withProgram p)

/-- The invariant behind rules R19, R21, R76 and R146. Its clause on the canonical form of memory is the model's own
(notes/assumptions/5.md). That a step keeps an ended state is the model's choice, notes/assumptions/2.md. -/
def Obligations.SoundStateStaysSound : Prop :=
  ∀ s t : State, Sound s → step s = .next t → Sound t

/-- 10_state.md section 9 (rule R27). -/
def Obligations.ResetStateIsSound : Prop :=
  Sound State.reset

/-- 70_reset_and_hazards.md section 1 (rules R170, R171). That ill-shaped arguments are refused is
93_implementation_defined.md U9. -/
def Obligations.LoadedStateIsSound : Prop :=
  ∀ a : ResetArgs, a.wellFormed = true → ∃ s, resetLoad a = .next s ∧ Sound s

/-- R27. That entry 0 of initial_registers is ignored is the spec's own decision D23. -/
def Obligations.ResetGivesEveryStateItsValue : Prop :=
  (∀ a : ResetArgs, a.wellFormed = true → ∃ s, resetLoad a = .next s ∧
    (∀ (r : RegIdx), r ≠ 0 → some (readReg s r) = a.registers[r.toNat]?) ∧ readReg s 0 = 0 ∧
    s.pc = 0 ∧ s.status = .running ∧ s.program = a.program ∧
    ∀ (x : Addr) (v : Word), s.mem.read x = some v ↔ (x, v) ∈ a.memory) ∧
  resetLoad (ResetArgs.mk (List.replicate 32 0) [] []) = .next State.reset ∧
  (∀ r, readReg State.reset r = 0) ∧ State.reset.pc = 0 ∧ State.reset.status = .running ∧
  (∀ x, State.reset.mem.read x = none) ∧ State.reset.program = []

/-- 93_implementation_defined.md U9: "such a reset is not a reset of this hardware". The form is the model's choice,
notes/assumptions/9.md. -/
def Obligations.MalformedResetIsRefused : Prop :=
  ∀ a : ResetArgs,
    (a.registers.length ≠ 32 → resetLoad a = .refused .malformedReset) ∧
    (¬ (a.memory.map Prod.fst).Nodup → resetLoad a = .refused .malformedReset) ∧
    (4294967295 < a.program.length → resetLoad a = .refused .malformedReset)

/-- 40_execution_common.md section 2 (rule R74): "Every run terminates; the hardware cannot loop or hang"; the bound
is the spec's own inference there. That an ended run answers its own state to further steps is the model's
choice, notes/assumptions/2.md. -/
def Obligations.EveryRunTerminates : Prop :=
  (∀ s : State, s.program.length ≤ 4294967295 → ∃ t, run s = .next t ∧ t.status ≠ .running) ∧
  (∀ s : State, s.program.length ≤ 4294967295 → s.pc.toNat ≤ s.program.length →
    ∃ t, runSteps (s.program.length - s.pc.toNat + 1) s = .next t ∧ t.status ≠ .running)

/-- 40_execution_common.md section 2 (rule R74), 20_memory.md sections 2 and 10 (rules R35, R44), which the spec
marks as derived. Steps after the end rest on notes/assumptions/2.md. -/
def Obligations.NthStepRunsNthWord : Prop :=
  (∀ (n : Nat) (s t : State), runSteps n s = .next t → t.program = s.program) ∧
  (∀ (a : ResetArgs) (n : Nat) (t : State), a.wellFormed = true → runSteps n (loadedState a) = .next t →
    t.status = .running → t.pc.toNat = n ∧ n ≤ a.program.length ∧ fetch t = a.program[n]?)

/-- 40_execution_common.md section 2: the table of the three ends (rule R76; the final pc is the spec's own
decision, D10, D29) and the spec's own inference that the pc is n after n completed steps (rule R74). That the
step count of run may exceed the run's length without effect is the model's choice, notes/assumptions/2.md. -/
def Obligations.FinalStateTellsHowTheRunEnded : Prop :=
  ∀ (a : ResetArgs) (t : State), a.wellFormed = true → run (loadedState a) = .next t →
    ∃ (n : Nat) (u : State), runSteps n (loadedState a) = .next u ∧ u.status = .running ∧ u.pc.toNat = n ∧
      ((t = u.withStatus .halted ∧ n < a.program.length ∧ AtExit u) ∨
       (t = u.withStatus .halted ∧ n = a.program.length) ∨
       (∃ f, t = u.withStatus (.faulted f) ∧ n < a.program.length ∧ AtFault u f))

/-- 70_reset_and_hazards.md section 3 (rule R176). The refusal is the model's choice, notes/assumptions/10.md. -/
def Obligations.InspectionOnlyAfterTheRun : Prop :=
  ∀ s : State,
    (s.status ≠ .running →
      (∀ r, inspectRegister s r = .ok (readReg s r)) ∧ ∀ x, inspectMemory s x = .ok (s.mem.read x)) ∧
    (s.status = .running →
      (∀ r, inspectRegister s r = .error .inspectedWhileRunning) ∧
      ∀ x, inspectMemory s x = .error .inspectedWhileRunning)

/-- 42_arith_reg.md section 2: "When add with the same operands does not fault, it and addu write the same 32 bits";
property 7 of 95_test_vectors.md section 10. -/
def Obligations.UncheckedTwinAgrees : Prop :=
  ∀ (s t : State) (rs rt rd : RegIdx) (shamt : Shamt) (imm : Imm16), s.status = .running → t.status = .running →
    (exec (.add rs rt rd shamt) s = .next t → exec (.addu rs rt rd shamt) s = .next t) ∧
    (exec (.sub rs rt rd shamt) s = .next t → exec (.subu rs rt rd shamt) s = .next t) ∧
    (exec (.addi rs rt imm) s = .next t → exec (.addiu rs rt imm) s = .next t)

/-- 42_arith_reg.md section 2 (rules R101, R103): "Equivalent bit-level test for overflow". -/
def Obligations.OverflowBitTestIsExact : Prop :=
  ∀ a b : Word,
    (addChecked a b = .error .integerOverflow ↔ a.msb = b.msb ∧ (addWrap a b).msb ≠ a.msb) ∧
    (subChecked a b = .error .integerOverflow ↔ a.msb ≠ b.msb ∧ (subWrap a b).msb ≠ a.msb)

/-- 44_immediate.md section 2 (rule R123): "After lui rt, hi the instruction ori rt, rt, lo completes the 32-bit
constant". -/
def Obligations.LuiThenOriLoadsConstant : Prop :=
  ∀ (s : State) (q rt : RegIdx) (hi lo : Imm16), rt ≠ 0 → ∃ t u,
    exec (.lui q rt hi) s = .next t ∧ exec (.ori rt rt lo) t = .next u ∧
    readUnsigned u rt = hi.toNat * 65536 + lo.toNat ∧ u.pc = s.pc + 2 ∧
    (∀ r, r ≠ rt → readReg u r = readReg s r) ∧ u.status = s.status ∧ u.mem = s.mem ∧ u.program = s.program

/-- 30_encoding.md section 6 (rule R59) and 70_reset_and_hazards.md section 4 (rule R181, the harmless filler). -/
def Obligations.ZeroWordFaultsAndSelfOrIsHarmless : Prop :=
  (∀ s : State, s.status = .running → s.program[s.pc.toNat]? = some 0 →
    step s = .next (s.withStatus (.faulted .zeroRegisterWrite))) ∧
  (∀ (s : State) (k : RegIdx) (shamt : Shamt), k ≠ 0 → exec (.or k k k shamt) s = .next (s.withPc (s.pc + 1)))
end

