-- ==== Sys2Proof/Laws/Decode.lean ====
section
/-! SUPPORT. The fields of a word put together from its fields (spec/30_encoding.md rules R47, R48, R63). -/

namespace Sys2Proof

/-- A register-type word as a number (R63). -/
theorem registerWord_toNat (rs rt rd : RegIdx) (shamt : Shamt) (f : BitVec 6) :
    (registerWord rs rt rd shamt f).toNat =
      rs.toNat * 2 ^ 21 + rt.toNat * 2 ^ 16 + rd.toNat * 2 ^ 11 + shamt.toNat * 2 ^ 6 + f.toNat := by
  have h (n : Nat) (m : Nat) (x : BitVec n) (y : BitVec m) : (x ++ y).toNat = x.toNat * 2 ^ m + y.toNat := by
    rw [BitVec.toNat_append, ← Nat.shiftLeft_add_eq_or_of_lt y.isLt, Nat.shiftLeft_eq]
  unfold registerWord
  simp only [h]
  simp
  omega

/-- An immediate-type word as a number (R63). -/
theorem immediateWord_toNat (p : BitVec 6) (rs rt : RegIdx) (imm : Imm16) :
    (immediateWord p rs rt imm).toNat =
      p.toNat * 2 ^ 26 + rs.toNat * 2 ^ 21 + rt.toNat * 2 ^ 16 + imm.toNat := by
  have h (n : Nat) (m : Nat) (x : BitVec n) (y : BitVec m) : (x ++ y).toNat = x.toNat * 2 ^ m + y.toNat := by
    rw [BitVec.toNat_append, ← Nat.shiftLeft_add_eq_or_of_lt y.isLt, Nat.shiftLeft_eq]
  unfold immediateWord
  simp only [h]
  omega

section
variable (rs rt rd : RegIdx) (shamt : Shamt) (f p : BitVec 6) (imm : Imm16)

/-- A field of a word as a number. -/
theorem extract_toNat (w : Word) (lo n : Nat) : (w.extractLsb' lo n).toNat = w.toNat / 2 ^ lo % 2 ^ n := by
  simp [Nat.shiftRight_eq_div_pow]

@[simp] theorem opcodeOf_registerWord : opcodeOf (registerWord rs rt rd shamt f) = 0 := by
  have := rs.isLt; have := rt.isLt; have := rd.isLt; have := shamt.isLt; have := f.isLt
  exact BitVec.eq_of_toNat_eq (by rw [opcodeOf, extract_toNat, registerWord_toNat]; simp; omega)

@[simp] theorem rsOf_registerWord : rsOf (registerWord rs rt rd shamt f) = rs := by
  have := rs.isLt; have := rt.isLt; have := rd.isLt; have := shamt.isLt; have := f.isLt
  exact BitVec.eq_of_toNat_eq (by rw [rsOf, extract_toNat, registerWord_toNat]; omega)

@[simp] theorem rtOf_registerWord : rtOf (registerWord rs rt rd shamt f) = rt := by
  have := rs.isLt; have := rt.isLt; have := rd.isLt; have := shamt.isLt; have := f.isLt
  exact BitVec.eq_of_toNat_eq (by rw [rtOf, extract_toNat, registerWord_toNat]; omega)

@[simp] theorem rdOf_registerWord : rdOf (registerWord rs rt rd shamt f) = rd := by
  have := rs.isLt; have := rt.isLt; have := rd.isLt; have := shamt.isLt; have := f.isLt
  exact BitVec.eq_of_toNat_eq (by rw [rdOf, extract_toNat, registerWord_toNat]; omega)

@[simp] theorem shamtOf_registerWord : shamtOf (registerWord rs rt rd shamt f) = shamt := by
  have := rs.isLt; have := rt.isLt; have := rd.isLt; have := shamt.isLt; have := f.isLt
  exact BitVec.eq_of_toNat_eq (by rw [shamtOf, extract_toNat, registerWord_toNat]; omega)

@[simp] theorem functOf_registerWord : functOf (registerWord rs rt rd shamt f) = f := by
  have := rs.isLt; have := rt.isLt; have := rd.isLt; have := shamt.isLt; have := f.isLt
  exact BitVec.eq_of_toNat_eq (by rw [functOf, extract_toNat, registerWord_toNat]; omega)

@[simp] theorem opcodeOf_immediateWord : opcodeOf (immediateWord p rs rt imm) = p := by
  have := rs.isLt; have := rt.isLt; have := p.isLt; have := imm.isLt
  exact BitVec.eq_of_toNat_eq (by rw [opcodeOf, extract_toNat, immediateWord_toNat]; omega)

@[simp] theorem rsOf_immediateWord : rsOf (immediateWord p rs rt imm) = rs := by
  have := rs.isLt; have := rt.isLt; have := p.isLt; have := imm.isLt
  exact BitVec.eq_of_toNat_eq (by rw [rsOf, extract_toNat, immediateWord_toNat]; omega)

@[simp] theorem rtOf_immediateWord : rtOf (immediateWord p rs rt imm) = rt := by
  have := rs.isLt; have := rt.isLt; have := p.isLt; have := imm.isLt
  exact BitVec.eq_of_toNat_eq (by rw [rtOf, extract_toNat, immediateWord_toNat]; omega)

@[simp] theorem immOf_immediateWord : immOf (immediateWord p rs rt imm) = imm := by
  have := rs.isLt; have := rt.isLt; have := p.isLt; have := imm.isLt
  exact BitVec.eq_of_toNat_eq (by rw [immOf, extract_toNat, immediateWord_toNat]; omega)

end

/-- A register-type word is decoded by its funct. -/
theorem decode_of_register {w : Word} (h : opcodeOf w = 0) : decode w = decodeRegister w := if_pos h

/-- Any other word is decoded by its opcode. -/
theorem decode_of_immediate {w : Word} (h : opcodeOf w ≠ 0) : decode w = decodeImmediate w := if_neg h

/-- What a register-type word can decode to. -/
theorem decodeRegister_ok {w : Word} {i : Instr} (h : decodeRegister w = .ok i) :
    (functOf w = 0x00#6 ∧ i = .sll (rsOf w) (rtOf w) (rdOf w) (shamtOf w)) ∨
    (functOf w = 0x02#6 ∧ i = .srl (rsOf w) (rtOf w) (rdOf w) (shamtOf w)) ∨
    (functOf w = 0x03#6 ∧ i = .sra (rsOf w) (rtOf w) (rdOf w) (shamtOf w)) ∨
    (functOf w = 0x04#6 ∧ i = .sllv (rsOf w) (rtOf w) (rdOf w) (shamtOf w)) ∨
    (functOf w = 0x06#6 ∧ i = .srlv (rsOf w) (rtOf w) (rdOf w) (shamtOf w)) ∨
    (functOf w = 0x07#6 ∧ i = .srav (rsOf w) (rtOf w) (rdOf w) (shamtOf w)) ∨
    (functOf w = 0x0C#6 ∧ i = .syscall (rsOf w) (rtOf w) (rdOf w) (shamtOf w)) ∨
    (functOf w = 0x20#6 ∧ i = .add (rsOf w) (rtOf w) (rdOf w) (shamtOf w)) ∨
    (functOf w = 0x21#6 ∧ i = .addu (rsOf w) (rtOf w) (rdOf w) (shamtOf w)) ∨
    (functOf w = 0x22#6 ∧ i = .sub (rsOf w) (rtOf w) (rdOf w) (shamtOf w)) ∨
    (functOf w = 0x23#6 ∧ i = .subu (rsOf w) (rtOf w) (rdOf w) (shamtOf w)) ∨
    (functOf w = 0x24#6 ∧ i = .and (rsOf w) (rtOf w) (rdOf w) (shamtOf w)) ∨
    (functOf w = 0x25#6 ∧ i = .or (rsOf w) (rtOf w) (rdOf w) (shamtOf w)) ∨
    (functOf w = 0x26#6 ∧ i = .xor (rsOf w) (rtOf w) (rdOf w) (shamtOf w)) ∨
    (functOf w = 0x27#6 ∧ i = .nor (rsOf w) (rtOf w) (rdOf w) (shamtOf w)) := by
  unfold decodeRegister at h
  split at h <;> simp_all

/-- What an immediate-type word can decode to. -/
theorem decodeImmediate_ok {w : Word} {i : Instr} (h : decodeImmediate w = .ok i) :
    (opcodeOf w = 0x08#6 ∧ i = .addi (rsOf w) (rtOf w) (immOf w)) ∨
    (opcodeOf w = 0x09#6 ∧ i = .addiu (rsOf w) (rtOf w) (immOf w)) ∨
    (opcodeOf w = 0x0C#6 ∧ i = .andi (rsOf w) (rtOf w) (immOf w)) ∨
    (opcodeOf w = 0x0D#6 ∧ i = .ori (rsOf w) (rtOf w) (immOf w)) ∨
    (opcodeOf w = 0x0E#6 ∧ i = .xori (rsOf w) (rtOf w) (immOf w)) ∨
    (opcodeOf w = 0x0F#6 ∧ i = .lui (rsOf w) (rtOf w) (immOf w)) := by
  unfold decodeImmediate at h
  split at h <;> simp_all

/-- A word of opcode 0 put together from its own fields. -/
theorem registerWord_fields {w : Word} (h : opcodeOf w = 0) :
    registerWord (rsOf w) (rtOf w) (rdOf w) (shamtOf w) (functOf w) = w := by
  apply BitVec.eq_of_toNat_eq
  have h' : w.toNat / 2 ^ 26 % 2 ^ 6 = 0 := by rw [← extract_toNat]; exact congrArg BitVec.toNat h
  have := w.isLt
  rw [registerWord_toNat]
  simp only [extract_toNat, rsOf, rtOf, rdOf, shamtOf, functOf]
  omega

/-- A word put together from its own immediate-type fields. -/
theorem immediateWord_fields (w : Word) : immediateWord (opcodeOf w) (rsOf w) (rtOf w) (immOf w) = w := by
  apply BitVec.eq_of_toNat_eq
  have := w.isLt
  rw [immediateWord_toNat]
  simp only [extract_toNat, opcodeOf, rsOf, rtOf, immOf]
  omega

/-- The bits that the register-type mask keeps are the opcode and the funct. -/
theorem and_registerMask (w : Word) : w &&& 0xFC00003F = opcodeOf w ++ 0#20 ++ functOf w := by
  refine BitVec.eq_of_getLsbD_eq fun k hk => ?_
  have h : (opcodeOf w ++ 0#20 ++ functOf w).getLsbD k =
      if k < 6 then w.getLsbD k else if k - 6 < 20 then false else (opcodeOf w).getLsbD (k - 6 - 20) := by
    rw [BitVec.getLsbD_append, BitVec.getLsbD_append]
    by_cases hk : k < 6 <;> simp [hk, functOf]
  refine Eq.trans ?_ h.symm
  unfold opcodeOf
  interval_cases k <;> simp

/-- The bits that the immediate-type mask keeps are the opcode. -/
theorem and_immediateMask (w : Word) : w &&& 0xFC000000 = opcodeOf w ++ 0#26 := by
  refine BitVec.eq_of_getLsbD_eq fun k hk => ?_
  have h : (opcodeOf w ++ 0#26).getLsbD k = if k < 26 then false else (opcodeOf w).getLsbD (k - 26) := by
    rw [BitVec.getLsbD_append]
    by_cases hk : k < 26 <;> simp [hk]
  refine Eq.trans ?_ h.symm
  unfold opcodeOf
  interval_cases k <;> simp

/-- A register-type word under its mask. -/
theorem registerWord_and_mask (rs rt rd : RegIdx) (shamt : Shamt) (f : BitVec 6) :
    registerWord rs rt rd shamt f &&& 0xFC00003F = 0#26 ++ f := by
  rw [and_registerMask, opcodeOf_registerWord, functOf_registerWord]; rfl

/-- An immediate-type word under its mask. -/
theorem immediateWord_and_mask (p : BitVec 6) (rs rt : RegIdx) (imm : Imm16) :
    immediateWord p rs rt imm &&& 0xFC000000 = p ++ 0#26 := by
  rw [and_immediateMask, opcodeOf_immediateWord]

end Sys2Proof
end

