-- ==== Sys2Proof/Laws/State.lean ====
section
/-! SUPPORT. One lemma per field per update of State, so that no proof unfolds a record update. -/

namespace Sys2Proof.Machine

@[simp] theorem State.withRegs_regs (s : State) (r : RegFile) : (s.withRegs r).regs = r := rfl
@[simp] theorem State.withRegs_pc (s : State) (r : RegFile) : (s.withRegs r).pc = s.pc := rfl
@[simp] theorem State.withRegs_status (s : State) (r : RegFile) : (s.withRegs r).status = s.status := rfl
@[simp] theorem State.withRegs_mem (s : State) (r : RegFile) : (s.withRegs r).mem = s.mem := rfl
@[simp] theorem State.withRegs_program (s : State) (r : RegFile) : (s.withRegs r).program = s.program := rfl

@[simp] theorem State.withPc_regs (s : State) (p : Word) : (s.withPc p).regs = s.regs := rfl
@[simp] theorem State.withPc_pc (s : State) (p : Word) : (s.withPc p).pc = p := rfl
@[simp] theorem State.withPc_status (s : State) (p : Word) : (s.withPc p).status = s.status := rfl
@[simp] theorem State.withPc_mem (s : State) (p : Word) : (s.withPc p).mem = s.mem := rfl
@[simp] theorem State.withPc_program (s : State) (p : Word) : (s.withPc p).program = s.program := rfl

@[simp] theorem State.withStatus_regs (s : State) (u : RunStatus) : (s.withStatus u).regs = s.regs := rfl
@[simp] theorem State.withStatus_pc (s : State) (u : RunStatus) : (s.withStatus u).pc = s.pc := rfl
@[simp] theorem State.withStatus_status (s : State) (u : RunStatus) : (s.withStatus u).status = u := rfl
@[simp] theorem State.withStatus_mem (s : State) (u : RunStatus) : (s.withStatus u).mem = s.mem := rfl
@[simp] theorem State.withStatus_program (s : State) (u : RunStatus) : (s.withStatus u).program = s.program := rfl

@[simp] theorem State.withMem_regs (s : State) (m : Memory) : (s.withMem m).regs = s.regs := rfl
@[simp] theorem State.withMem_pc (s : State) (m : Memory) : (s.withMem m).pc = s.pc := rfl
@[simp] theorem State.withMem_status (s : State) (m : Memory) : (s.withMem m).status = s.status := rfl
@[simp] theorem State.withMem_mem (s : State) (m : Memory) : (s.withMem m).mem = m := rfl
@[simp] theorem State.withMem_program (s : State) (m : Memory) : (s.withMem m).program = s.program := rfl

@[simp] theorem State.withProgram_regs (s : State) (p : List Word) : (s.withProgram p).regs = s.regs := rfl
@[simp] theorem State.withProgram_pc (s : State) (p : List Word) : (s.withProgram p).pc = s.pc := rfl
@[simp] theorem State.withProgram_status (s : State) (p : List Word) : (s.withProgram p).status = s.status := rfl
@[simp] theorem State.withProgram_mem (s : State) (p : List Word) : (s.withProgram p).mem = s.mem := rfl
@[simp] theorem State.withProgram_program (s : State) (p : List Word) : (s.withProgram p).program = p := rfl

/-- Two states with equal fields are equal. -/
theorem State.ext_fields {s t : State} (hr : s.regs = t.regs) (hp : s.pc = t.pc) (hs : s.status = t.status)
    (hm : s.mem = t.mem) (hg : s.program = t.program) : s = t := by
  cases s; cases t; simp_all

end Sys2Proof.Machine
end

