-- ==== Sys2Proof/Laws/Registers.lean ====
section
/-! SUPPORT. The laws of the register file's ports (spec/10_state.md rules R12 to R15). -/

namespace Sys2Proof.Machine

/-- Two register indices other than 0 with the same cell are the same index. -/
theorem regIdx_eq_of_cell_eq {r q : RegIdx} (hr : r ≠ 0) (hq : q ≠ 0) (h : r.toNat - 1 = q.toNat - 1) : r = q := by
  have hr' : r.toNat ≠ 0 := fun h0 => hr (BitVec.eq_of_toNat_eq (by simpa using h0))
  have hq' : q.toNat ≠ 0 := fun h0 => hq (BitVec.eq_of_toNat_eq (by simpa using h0))
  exact BitVec.eq_of_toNat_eq (by omega)

@[simp] theorem readReg_withPc (s : State) (p : Word) (r : RegIdx) : readReg (s.withPc p) r = readReg s r := rfl
@[simp] theorem readReg_withStatus (s : State) (u : RunStatus) (r : RegIdx) :
    readReg (s.withStatus u) r = readReg s r := rfl
@[simp] theorem readReg_withMem (s : State) (m : Memory) (r : RegIdx) : readReg (s.withMem m) r = readReg s r := rfl
@[simp] theorem readReg_withProgram (s : State) (p : List Word) (r : RegIdx) :
    readReg (s.withProgram p) r = readReg s r := rfl

/-- A register other than 0 reads its cell. -/
theorem readReg_eq_cell (s : State) {r : RegIdx} (h : r ≠ 0) :
    readReg s r = s.regs[r.toNat - 1]'(by have := r.isLt; omega) := by
  exact if_neg h

/-- Storing a register and reading it back. -/
theorem readReg_storeReg_self (s : State) {r : RegIdx} (h : r ≠ 0) (v : Word) :
    readReg (s.withRegs (storeReg s.regs r v)) r = v := by
  simp [readReg_eq_cell _ h, storeReg]

/-- Storing a register leaves every other one. -/
theorem readReg_storeReg_other (s : State) {r q : RegIdx} (h : r ≠ 0) (v : Word) (hq : q ≠ r) :
    readReg (s.withRegs (storeReg s.regs r v)) q = readReg s q := by
  by_cases h0 : q = 0
  · simp [readReg, Config.zeroReg, h0]
  · have hne : r.toNat - 1 ≠ q.toNat - 1 := fun he => hq (regIdx_eq_of_cell_eq h h0 he).symm
    simp [readReg_eq_cell _ h0, storeReg, hne]

/-- The write port's two outcomes. -/
theorem writeReg_cases (s : State) (r : RegIdx) (v : Word) :
    (r = 0 ∧ writeReg s r v = .error .zeroRegisterWrite) ∨
    (r ≠ 0 ∧ writeReg s r v = .ok (s.withRegs (storeReg s.regs r v))) := by
  by_cases h : r = 0
  · exact .inl ⟨h, if_pos h⟩
  · exact .inr ⟨h, if_neg h⟩

/-- A loaded register file holds the host's words. -/
theorem readReg_loadRegs (s : State) (words : List Word) {r : RegIdx} (h : r ≠ 0) :
    readReg (s.withRegs (loadRegs words)) r = words.getD r.toNat 0 := by
  have h' : r.toNat ≠ 0 := fun h0 => h (BitVec.eq_of_toNat_eq (by simpa using h0))
  have h1 : r.toNat - 1 + 1 = r.toNat := by omega
  simp [readReg_eq_cell _ h, loadRegs, h1]

end Sys2Proof.Machine
end

