-- ==== Sys2Proof/Laws/Ops.lean ====
section
/-! SUPPORT. What each shared operation can do, said once: fault entry, halt, commit, the check order, the checked
results, the dispatcher, fetch, and one step. -/

namespace Sys2Proof.Machine

/-- Fault entry is a next state that differs in its status only (R146). -/
@[simp] theorem raiseFault_eq (f : Fault) (s : State) : raiseFault f s = .next (s.withStatus (.faulted f)) := rfl

/-- A halt is a next state that differs in its status only. -/
@[simp] theorem halt_eq (s : State) : halt s = .next (s.withStatus .halted) := rfl

/-- The state a successful commit leaves. -/
def committed (s : State) (d : RegIdx) (v : Word) : State := advancePc (s.withRegs (storeReg s.regs d v))

@[simp] theorem committed_pc (s : State) (d : RegIdx) (v : Word) : (committed s d v).pc = s.pc + 1 := rfl
@[simp] theorem committed_status (s : State) (d : RegIdx) (v : Word) : (committed s d v).status = s.status := rfl
@[simp] theorem committed_mem (s : State) (d : RegIdx) (v : Word) : (committed s d v).mem = s.mem := rfl
@[simp] theorem committed_program (s : State) (d : RegIdx) (v : Word) : (committed s d v).program = s.program := rfl

/-- The destination of a commit reads the result. -/
theorem readReg_committed_self (s : State) {d : RegIdx} (h : d ≠ 0) (v : Word) : readReg (committed s d v) d = v :=
  readReg_storeReg_self s h v

/-- Every other register of a commit reads as before. -/
theorem readReg_committed_other (s : State) {d q : RegIdx} (h : d ≠ 0) (v : Word) (hq : q ≠ d) :
    readReg (committed s d v) q = readReg s q :=
  readReg_storeReg_other s h v hq

/-- The two outcomes of a commit. -/
theorem commit_cases (d : RegIdx) (v : Word) (s : State) :
    (d = 0 ∧ commit d v s = .next (s.withStatus (.faulted .zeroRegisterWrite))) ∨
    (d ≠ 0 ∧ commit d v s = .next (committed s d v)) := by
  rcases writeReg_cases s d v with ⟨h, e⟩ | ⟨h, e⟩
  · exact .inl ⟨h, by simp [commit, e]⟩
  · exact .inr ⟨h, by simp [commit, e, committed]⟩

/-- A destination of register 0 faults before anything else is looked at (R150). -/
theorem finish_zero (result : Except Fault Word) (s : State) :
    finish 0 result s = .next (s.withStatus (.faulted .zeroRegisterWrite)) := by
  simp [finish, Config.zeroReg]

/-- With another destination the fault of the computation is taken. -/
theorem finish_error {d : RegIdx} (h : d ≠ 0) (f : Fault) (s : State) :
    finish d (.error f) s = .next (s.withStatus (.faulted f)) :=
  if_neg h

/-- With another destination a result is committed. -/
theorem finish_ok {d : RegIdx} (h : d ≠ 0) (v : Word) (s : State) :
    finish d (.ok v) s = .next (committed s d v) := by
  rcases commit_cases d v s with ⟨h0, _⟩ | ⟨_, e⟩
  · exact absurd h0 h
  · exact (if_neg h).trans e

/-- Everything the check order can answer. -/
theorem finish_cases (d : RegIdx) (result : Except Fault Word) (s : State) :
    (d = 0 ∧ finish d result s = .next (s.withStatus (.faulted .zeroRegisterWrite))) ∨
    (d ≠ 0 ∧ ∃ f, result = .error f ∧ finish d result s = .next (s.withStatus (.faulted f))) ∨
    (d ≠ 0 ∧ ∃ v, result = .ok v ∧ finish d result s = .next (committed s d v)) := by
  by_cases h : d = 0
  · subst h; exact .inl ⟨rfl, finish_zero result s⟩
  · cases result with
    | error f => exact .inr (.inl ⟨h, f, rfl, finish_error h f s⟩)
    | ok v => exact .inr (.inr ⟨h, v, rfl, finish_ok h v s⟩)

/-- The range test in the spec's words. -/
theorem outOfRange_iff (t : Int) : outOfRange t = true ↔ t < -2147483648 ∨ 2147483647 < t := by
  simp [outOfRange]

/-- A checked result out of range is the overflow fault. -/
theorem checked_of_out {t : Int} (h : t < -2147483648 ∨ 2147483647 < t) : checked t = .error .integerOverflow := by
  simp [checked, (outOfRange_iff t).2 h]

/-- A checked result in range is its 32 bits. -/
theorem checked_of_in {t : Int} (h : ¬ (t < -2147483648 ∨ 2147483647 < t)) :
    checked t = .ok (BitVec.ofInt 32 t) := by
  have : outOfRange t = false := by
    cases hb : outOfRange t with
    | false => rfl
    | true => exact absurd ((outOfRange_iff t).1 hb) h
  simp [checked, this]

/-- The sign extension in the signed view. -/
theorem signedImm_toInt (imm : Imm16) : (signedImm imm).toInt = imm.toInt :=
  BitVec.toInt_signExtend_of_le (by decide)

/-- The zero extension in the unsigned view. -/
theorem unsignedImm_toNat (imm : Imm16) : (unsignedImm imm).toNat = imm.toNat := by
  have := imm.isLt
  simp [unsignedImm]; omega

/-- The upper form in the unsigned view. -/
theorem upperImm_toNat (imm : Imm16) : (upperImm imm).toNat = imm.toNat * 65536 := by
  have h : (imm ++ 0#16).toNat = imm.toNat <<< 16 ||| 0 := BitVec.toNat_append imm 0#16
  simpa [upperImm, Nat.shiftLeft_eq] using h

/-- A variable amount is the register's value modulo 32. -/
theorem registerAmount_eq (v : Word) : registerAmount v = v.toNat % 32 := by
  simp [registerAmount]

/-- The dispatcher on the exit code. -/
theorem dispatchSyscall_exit : dispatchSyscall 10 = .ok .halt := by decide

/-- The dispatcher on every other code. -/
theorem dispatchSyscall_other {c : Word} (h : c ≠ 10) : dispatchSyscall c = .error (.unsupportedSyscall c) :=
  if_neg h

/-- The two outcomes of a syscall. -/
theorem execSyscall_cases (rs rt rd : RegIdx) (shamt : Shamt) (s : State) :
    (readReg s 2 = 10 ∧ execSyscall rs rt rd shamt s = .next (s.withStatus .halted)) ∨
    (readReg s 2 ≠ 10 ∧
      execSyscall rs rt rd shamt s = .next (s.withStatus (.faulted (.unsupportedSyscall (readReg s 2))))) := by
  have e : Config.v0 = 2 := rfl
  by_cases h : readReg s 2 = 10
  · exact .inl ⟨h, by unfold execSyscall; rw [e, h, dispatchSyscall_exit]; rfl⟩
  · exact .inr ⟨h, by unfold execSyscall; rw [e, dispatchSyscall_other h]; rfl⟩

/-- A step of an ended run. -/
theorem step_ended {s : State} (h : s.status ≠ .running) : step s = .next s := by
  unfold step; cases hs : s.status <;> simp_all

/-- A step past the end of the store. -/
theorem step_end {s : State} (h : s.status = .running) (hf : s.program[s.pc.toNat]? = none) :
    step s = .next (s.withStatus .halted) := by
  simp [step, h, fetch, hf]

/-- A step on a word that does not decode. -/
theorem step_error {s : State} {w : Word} {e : DecodeError} (h : s.status = .running)
    (hf : s.program[s.pc.toNat]? = some w) (hd : decode w = .error e) :
    step s = .next (s.withStatus (.faulted (decodeFault e))) := by
  simp [step, h, fetch, hf, hd]

/-- Everything a step can do. -/
theorem step_cases (s : State) :
    (s.status ≠ .running ∧ step s = .next s) ∨
    (s.status = .running ∧ s.program[s.pc.toNat]? = none ∧ step s = .next (s.withStatus .halted)) ∨
    (s.status = .running ∧ ∃ w e, s.program[s.pc.toNat]? = some w ∧ decode w = .error e ∧
      step s = .next (s.withStatus (.faulted (decodeFault e)))) ∨
    (s.status = .running ∧ ∃ w i, s.program[s.pc.toNat]? = some w ∧ decode w = .ok i ∧ step s = exec i s) := by
  by_cases h : s.status = .running
  · cases hf : s.program[s.pc.toNat]? with
    | none => exact .inr (.inl ⟨h, rfl, step_end h hf⟩)
    | some w =>
      cases hd : decode w with
      | error e => exact .inr (.inr (.inl ⟨h, w, e, rfl, hd, step_error h hf hd⟩))
      | ok i => exact .inr (.inr (.inr ⟨h, w, i, rfl, hd, by simp [step, h, fetch, hf, hd]⟩))
  · exact .inl ⟨h, step_ended h⟩

/-- A placed word is found at its index. -/
theorem placeWord_getElem? (p : List Word) (n : Nat) (w : Word) : (placeWord p n w)[n]? = some w := by
  induction n generalizing p with
  | zero => cases p <;> simp [placeWord]
  | succ n ih => cases p <;> simp [placeWord, ih]

/-- The word placed for the next step is the one it fetches. -/
theorem fetch_withFetchWord (s : State) (nbits w : Nat) :
    fetch (s.withFetchWord nbits w) = some (BitVec.ofNat 32 (w % 2 ^ nbits)) := by
  simp [fetch, State.withFetchWord, placeWord_getElem?]

end Sys2Proof.Machine
end

