-- ==== Sys2Proof/Laws/Exec.lean ====
section
/-! SUPPORT. The meaning of each instruction as one equation of `exec`, and the shape they share: an instruction with a
destination is the check order `finish` of some result; syscall is the dispatcher. -/

namespace Sys2Proof.Machine

section
variable (rs rt rd : RegIdx) (shamt : Shamt) (imm : Imm16) (s : State)

theorem exec_sll : exec (.sll rs rt rd shamt) s = finish rd (.ok (readReg s rt <<< fieldAmount shamt)) s := rfl
theorem exec_srl : exec (.srl rs rt rd shamt) s = finish rd (.ok (readReg s rt >>> fieldAmount shamt)) s := rfl
theorem exec_sra : exec (.sra rs rt rd shamt) s = finish rd (.ok ((readReg s rt).sshiftRight (fieldAmount shamt))) s := rfl
theorem exec_sllv : exec (.sllv rs rt rd shamt) s = finish rd (.ok (readReg s rt <<< registerAmount (readReg s rs))) s := rfl
theorem exec_srlv : exec (.srlv rs rt rd shamt) s = finish rd (.ok (readReg s rt >>> registerAmount (readReg s rs))) s := rfl
theorem exec_srav : exec (.srav rs rt rd shamt) s = finish rd (.ok ((readReg s rt).sshiftRight (registerAmount (readReg s rs)))) s := rfl
theorem exec_add : exec (.add rs rt rd shamt) s = finish rd (checked (readSigned s rs + readSigned s rt)) s := rfl
theorem exec_addu : exec (.addu rs rt rd shamt) s = finish rd (.ok (readReg s rs + readReg s rt)) s := rfl
theorem exec_sub : exec (.sub rs rt rd shamt) s = finish rd (checked (readSigned s rs - readSigned s rt)) s := rfl
theorem exec_subu : exec (.subu rs rt rd shamt) s = finish rd (.ok (readReg s rs - readReg s rt)) s := rfl
theorem exec_and : exec (.and rs rt rd shamt) s = finish rd (.ok (readReg s rs &&& readReg s rt)) s := rfl
theorem exec_or : exec (.or rs rt rd shamt) s = finish rd (.ok (readReg s rs ||| readReg s rt)) s := rfl
theorem exec_xor : exec (.xor rs rt rd shamt) s = finish rd (.ok (readReg s rs ^^^ readReg s rt)) s := rfl
theorem exec_nor : exec (.nor rs rt rd shamt) s = finish rd (.ok (~~~(readReg s rs ||| readReg s rt))) s := rfl
theorem exec_syscall : exec (.syscall rs rt rd shamt) s = execSyscall rs rt rd shamt s := rfl
theorem exec_addi : exec (.addi rs rt imm) s = finish rt (checked (readSigned s rs + imm.toInt)) s := by
  rw [← signedImm_toInt]; rfl
theorem exec_addiu : exec (.addiu rs rt imm) s = finish rt (.ok (readReg s rs + signedImm imm)) s := rfl
theorem exec_andi : exec (.andi rs rt imm) s = finish rt (.ok (readReg s rs &&& unsignedImm imm)) s := rfl
theorem exec_ori : exec (.ori rs rt imm) s = finish rt (.ok (readReg s rs ||| unsignedImm imm)) s := rfl
theorem exec_xori : exec (.xori rs rt imm) s = finish rt (.ok (readReg s rs ^^^ unsignedImm imm)) s := rfl
theorem exec_lui : exec (.lui rs rt imm) s = finish rt (.ok (upperImm imm)) s := rfl

end

/-- An instruction with a destination runs through the one check order. -/
theorem exec_eq_finish {i : Instr} {d : RegIdx} (h : destOf i = some d) (s : State) :
    ∃ result, exec i s = finish d result s := by
  cases i <;> simp only [destOf, Option.some.injEq, reduceCtorEq] at h <;> subst h
  case sll => exact ⟨_, exec_sll ..⟩
  case srl => exact ⟨_, exec_srl ..⟩
  case sra => exact ⟨_, exec_sra ..⟩
  case sllv => exact ⟨_, exec_sllv ..⟩
  case srlv => exact ⟨_, exec_srlv ..⟩
  case srav => exact ⟨_, exec_srav ..⟩
  case add => exact ⟨_, exec_add ..⟩
  case addu => exact ⟨_, exec_addu ..⟩
  case sub => exact ⟨_, exec_sub ..⟩
  case subu => exact ⟨_, exec_subu ..⟩
  case and => exact ⟨_, exec_and ..⟩
  case or => exact ⟨_, exec_or ..⟩
  case xor => exact ⟨_, exec_xor ..⟩
  case nor => exact ⟨_, exec_nor ..⟩
  case addi => exact ⟨_, exec_addi ..⟩
  case addiu => exact ⟨_, exec_addiu ..⟩
  case andi => exact ⟨_, exec_andi ..⟩
  case ori => exact ⟨_, exec_ori ..⟩
  case xori => exact ⟨_, exec_xori ..⟩
  case lui => exact ⟨_, exec_lui ..⟩

/-- The one instruction without a destination is syscall. -/
theorem eq_syscall_of_destOf_none {i : Instr} (h : destOf i = none) :
    ∃ rs rt rd shamt, i = .syscall rs rt rd shamt := by
  cases i <;> simp only [destOf, reduceCtorEq] at h
  exact ⟨_, _, _, _, rfl⟩

/-- A commit is a completion in the sense of the statements. -/
theorem completes_committed (s : State) {d : RegIdx} (h : d ≠ 0) (v : Word) : Completes s d v (committed s d v) where
  dest := readReg_committed_self s h v
  others _ hq := readReg_committed_other s h v hq
  pc := rfl
  status := rfl
  cells _ := rfl
  mem := rfl
  program := rfl

end Sys2Proof.Machine
end

