-- ==== Sys2Proof/Laws/Memory.lean ====
section
/-! SUPPORT. The laws of the data memory map (spec/20_memory.md rules R30 to R32): read after write, the frame of a
write, and that every operation keeps the canonical form. -/

namespace Sys2Proof.Machine

/-- The canonical form as a proposition. -/
theorem Memory.wf_iff (m : Memory) :
    m.wf = true ↔ (m.map Prod.fst).Pairwise (· < ·) ∧ ∀ c ∈ m, c.1 < 2 ^ 32 := by
  simp [Memory.wf]

@[simp] theorem Memory.lookup_nil (a : Nat) : Memory.lookup [] a = none := rfl

@[simp] theorem Memory.lookup_cons (b : Nat) (u : Word) (m : Memory) (a : Nat) :
    Memory.lookup ((b, u) :: m) a = if a = b then some u else Memory.lookup m a := rfl

/-- What a lookup after an insertion answers. -/
theorem Memory.lookup_insert (m : Memory) (a : Nat) (v : Word) (b : Nat) :
    Memory.lookup (Memory.insert m a v) b = if b = a then some v else Memory.lookup m b := by
  induction m with
  | nil => simp [Memory.insert]
  | cons c m ih =>
    obtain ⟨k, u⟩ := c
    simp only [Memory.insert]
    split
    · simp
    · split
      · next h => subst h; by_cases hb : b = a <;> simp [hb]
      · next h1 h2 =>
        simp only [Memory.lookup_cons, ih]
        by_cases hb : b = k
        · have : b ≠ a := by omega
          simp [hb]; omega
        · simp [hb]

/-- Reading back a written cell. -/
theorem Memory.read_write_self (m : Memory) (a : Addr) (v : Word) : (m.write a v).read a = some v := by
  simp [Memory.read, Memory.write, Memory.lookup_insert]

/-- A write leaves every other cell. -/
theorem Memory.read_write_other (m : Memory) {a b : Addr} (v : Word) (h : b ≠ a) :
    (m.write a v).read b = m.read b := by
  have : b.toNat ≠ a.toNat := fun he => h (BitVec.eq_of_toNat_eq he)
  simp [Memory.read, Memory.write, Memory.lookup_insert, this]

/-- The addresses of an insertion. -/
theorem Memory.mem_insert_fst (m : Memory) (a : Nat) (v : Word) {k : Nat}
    (h : k ∈ (Memory.insert m a v).map Prod.fst) : k = a ∨ k ∈ m.map Prod.fst := by
  induction m with
  | nil => simpa [Memory.insert] using h
  | cons c m ih =>
    obtain ⟨b, u⟩ := c
    simp only [Memory.insert] at h
    split at h
    · simpa using h
    · split at h
      · simp at h ⊢; tauto
      · simp only [List.map_cons, List.mem_cons] at h ⊢
        rcases h with h | h
        · exact .inr (.inl h)
        · rcases ih h with h | h
          · exact .inl h
          · exact .inr (.inr h)

/-- Insertion keeps the addresses rising. -/
theorem Memory.insert_rising (m : Memory) (a : Nat) (v : Word) (h : (m.map Prod.fst).Pairwise (· < ·)) :
    ((Memory.insert m a v).map Prod.fst).Pairwise (· < ·) := by
  induction m with
  | nil => simp [Memory.insert]
  | cons c m ih =>
    obtain ⟨b, u⟩ := c
    simp only [List.map_cons, List.pairwise_cons] at h
    simp only [Memory.insert]
    split
    · next hab =>
      simp only [List.map_cons, List.pairwise_cons, List.mem_cons]
      refine ⟨?_, h⟩
      rintro k (rfl | hk)
      · exact hab
      · exact Nat.lt_trans hab (h.1 k hk)
    · split
      · next hab => subst hab; simpa [List.pairwise_cons] using h
      · next h1 h2 =>
        simp only [List.map_cons, List.pairwise_cons]
        refine ⟨fun k hk => ?_, ih h.2⟩
        rcases Memory.mem_insert_fst m a v hk with rfl | hk
        · omega
        · exact h.1 k hk

/-- A write keeps the canonical form. -/
theorem Memory.write_wf (m : Memory) (a : Addr) (v : Word) (h : m.wf = true) : (m.write a v).wf = true := by
  rw [Memory.wf_iff] at h ⊢
  refine ⟨Memory.insert_rising m _ v h.1, fun c hc => ?_⟩
  rcases Memory.mem_insert_fst m a.toNat v (List.mem_map_of_mem hc) with h' | h'
  · rw [h']; exact a.isLt
  · obtain ⟨d, hd, he⟩ := List.mem_map.1 h'
    exact he ▸ h.2 d hd

/-- A loaded map is in canonical form. -/
theorem Memory.ofCells_wf (cells : List (Addr × Word)) : (Memory.ofCells cells).wf = true := by
  induction cells with
  | nil => rfl
  | cons c cells ih => exact Memory.write_wf _ _ _ ih

/-- What a loaded map answers, one pair at a time. -/
theorem Memory.read_ofCells_cons (c : Addr × Word) (cells : List (Addr × Word)) (a : Addr) :
    (Memory.ofCells (c :: cells)).read a = if a = c.1 then some c.2 else (Memory.ofCells cells).read a := by
  by_cases h : a = c.1
  · subst h; simp [Memory.ofCells, Memory.read_write_self]
  · simp [Memory.ofCells, Memory.read_write_other _ _ h, h]

/-- The memory after reset is in canonical form. -/
theorem State.reset_mem_wf : State.reset.mem.wf = true := rfl

end Sys2Proof.Machine
end

