-- ==== Sys2Proof/Laws/PerInstr.lean ====
section
/-! SUPPORT. The per-instruction family RowPattern: the encoding of an instruction carries, under its row's mask, its
row's match value. -/

namespace Sys2Proof.Laws.RowPattern

/-- The word of an instruction shows the fixed bits of its row of spec/opcode_table.json (the match and mask table under
R54). -/
def Statement (i : Instr) : Prop := encode i &&& opMask i.op = opMatch i.op

theorem sll (rs rt rd : RegIdx) (shamt : Shamt) : Statement (.sll rs rt rd shamt) :=
  registerWord_and_mask rs rt rd shamt _

theorem srl (rs rt rd : RegIdx) (shamt : Shamt) : Statement (.srl rs rt rd shamt) :=
  registerWord_and_mask rs rt rd shamt _

theorem sra (rs rt rd : RegIdx) (shamt : Shamt) : Statement (.sra rs rt rd shamt) :=
  registerWord_and_mask rs rt rd shamt _

theorem sllv (rs rt rd : RegIdx) (shamt : Shamt) : Statement (.sllv rs rt rd shamt) :=
  registerWord_and_mask rs rt rd shamt _

theorem srlv (rs rt rd : RegIdx) (shamt : Shamt) : Statement (.srlv rs rt rd shamt) :=
  registerWord_and_mask rs rt rd shamt _

theorem srav (rs rt rd : RegIdx) (shamt : Shamt) : Statement (.srav rs rt rd shamt) :=
  registerWord_and_mask rs rt rd shamt _

theorem syscall (rs rt rd : RegIdx) (shamt : Shamt) : Statement (.syscall rs rt rd shamt) :=
  registerWord_and_mask rs rt rd shamt _

theorem add (rs rt rd : RegIdx) (shamt : Shamt) : Statement (.add rs rt rd shamt) :=
  registerWord_and_mask rs rt rd shamt _

theorem addu (rs rt rd : RegIdx) (shamt : Shamt) : Statement (.addu rs rt rd shamt) :=
  registerWord_and_mask rs rt rd shamt _

theorem sub (rs rt rd : RegIdx) (shamt : Shamt) : Statement (.sub rs rt rd shamt) :=
  registerWord_and_mask rs rt rd shamt _

theorem subu (rs rt rd : RegIdx) (shamt : Shamt) : Statement (.subu rs rt rd shamt) :=
  registerWord_and_mask rs rt rd shamt _

theorem and (rs rt rd : RegIdx) (shamt : Shamt) : Statement (.and rs rt rd shamt) :=
  registerWord_and_mask rs rt rd shamt _

theorem or (rs rt rd : RegIdx) (shamt : Shamt) : Statement (.or rs rt rd shamt) :=
  registerWord_and_mask rs rt rd shamt _

theorem xor (rs rt rd : RegIdx) (shamt : Shamt) : Statement (.xor rs rt rd shamt) :=
  registerWord_and_mask rs rt rd shamt _

theorem nor (rs rt rd : RegIdx) (shamt : Shamt) : Statement (.nor rs rt rd shamt) :=
  registerWord_and_mask rs rt rd shamt _

theorem addi (rs rt : RegIdx) (imm : Imm16) : Statement (.addi rs rt imm) :=
  immediateWord_and_mask _ rs rt imm

theorem addiu (rs rt : RegIdx) (imm : Imm16) : Statement (.addiu rs rt imm) :=
  immediateWord_and_mask _ rs rt imm

theorem andi (rs rt : RegIdx) (imm : Imm16) : Statement (.andi rs rt imm) :=
  immediateWord_and_mask _ rs rt imm

theorem ori (rs rt : RegIdx) (imm : Imm16) : Statement (.ori rs rt imm) :=
  immediateWord_and_mask _ rs rt imm

theorem xori (rs rt : RegIdx) (imm : Imm16) : Statement (.xori rs rt imm) :=
  immediateWord_and_mask _ rs rt imm

theorem lui (rs rt : RegIdx) (imm : Imm16) : Statement (.lui rs rt imm) :=
  immediateWord_and_mask _ rs rt imm

end Sys2Proof.Laws.RowPattern
end

