-- ==== Sys2Proof/Laws/Run.lean ====
section
/-! SUPPORT. The laws of the host's operations: n steps, the loaded state, inspection (spec/70_reset_and_hazards.md). -/

namespace Sys2Proof.Machine

@[simp] theorem runSteps_zero (s : State) : runSteps 0 s = .next s := rfl

/-- The first of n + 1 steps, by its outcome. -/
theorem runSteps_succ_eq (n : Nat) (s : State) :
    runSteps (n + 1) s =
      match step s with
      | .next t => runSteps n t
      | .fault f => .fault f
      | .refused r => .refused r := by
  cases hs : step s with
  | _ x =>
    have h' : Sys2Proof.core.step s = step s := rfl
    rw [hs] at h'
    simp only [runSteps, Host.Core.run, h']
    rfl

/-- The first of n + 1 steps, when it answers a next state. -/
theorem runSteps_succ {s t : State} (h : step s = .next t) (n : Nat) : runSteps (n + 1) s = runSteps n t := by
  rw [runSteps_succ_eq, h]

/-- The last of n + 1 steps, when the first n answer a next state. -/
theorem runSteps_succ_last {n : Nat} {s u : State} (h : runSteps n s = .next u) : runSteps (n + 1) s = step u := by
  induction n generalizing s with
  | zero =>
    cases h
    rw [runSteps_succ_eq]
    cases step u <;> rfl
  | succ n ih =>
    rw [runSteps_succ_eq] at h ⊢
    cases hs : step s with
    | next t => simp only [hs] at h ⊢; exact ih h
    | fault f => simp only [hs] at h; cases h
    | refused r => simp only [hs] at h; cases h

@[simp] theorem loadedState_pc (a : ResetArgs) : (loadedState a).pc = 0 := rfl
@[simp] theorem loadedState_status (a : ResetArgs) : (loadedState a).status = .running := rfl
@[simp] theorem loadedState_mem (a : ResetArgs) : (loadedState a).mem = Memory.ofCells a.memory := rfl
@[simp] theorem loadedState_program (a : ResetArgs) : (loadedState a).program = a.program := rfl

/-- A loaded register other than 0 holds the host's word. -/
theorem readReg_loadedState (a : ResetArgs) {r : RegIdx} (h : r ≠ 0) :
    readReg (loadedState a) r = a.registers.getD r.toNat 0 :=
  readReg_loadRegs (loadedState a) a.registers h

/-- Register 0 reads zero whatever the host supplied. -/
theorem readReg_zero (s : State) : readReg s 0 = 0 := if_pos rfl

/-- The two outcomes of a reset. -/
theorem resetLoad_cases (a : ResetArgs) :
    (a.wellFormed = true ∧ resetLoad a = .next (loadedState a)) ∨
    (a.wellFormed = false ∧ resetLoad a = .refused .malformedReset) := by
  cases h : a.wellFormed
  · exact .inr ⟨rfl, by simp [resetLoad, h]⟩
  · exact .inl ⟨rfl, by simp [resetLoad, h]⟩

/-- The shape of reset arguments in the words of R171. -/
theorem ResetArgs.wellFormed_iff (a : ResetArgs) :
    a.wellFormed = true ↔
      a.registers.length = 32 ∧ (a.memory.map Prod.fst).Nodup ∧ a.program.length ≤ 4294967295 := by
  have e : Config.maxProgramLength = 4294967295 := rfl
  simp only [ResetArgs.wellFormed, ResetArgs.registersFit, ResetArgs.memoryIsMap, ResetArgs.programFits, Config.nregs, e,
    Bool.and_eq_true, beq_iff_eq, decide_eq_true_eq, and_assoc]

/-- A port that exists only after the run. -/
theorem afterRun_cases {α : Type} (s : State) (x : α) :
    (s.status = .running ∧ afterRun s x = .error .inspectedWhileRunning) ∨
    (s.status ≠ .running ∧ afterRun s x = .ok x) := by
  unfold afterRun
  cases h : s.status <;> simp

end Sys2Proof.Machine
end

