-- ==== Sys2Proof/Tests/Slice0.lean ====
section
/-! SUPPORT. The model's own tests: what well-formedness refuses, one written-out word for each constructor, one step on
the vectors of spec/95_test_vectors.md, and for each statement with hypotheses a state and operands that
meet them. Every expected value is the spec's. -/

namespace Sys2Proof.Tests

open Sys2Proof Sys2Proof.Machine

/-- The machine of the vectors: these registers, every other register 0, this program, pc 0, running. -/
def machine (regs : List (RegIdx × Word)) (program : List Word) : State :=
  (regs.foldl (fun s c => s.withRegs (storeReg s.regs c.1 c.2)) State.reset).withProgram program

/-- The next state of an answer. -/
def answer (r : Result) : Option State :=
  match r with
  | .next t => some t
  | .fault _ => none
  | .refused _ => none

/-- Status, pc and one register of an answer. -/
def look (r : Result) (d : RegIdx) : Option (RunStatus × Word × Word) :=
  (answer r).map fun t => (t.status, t.pc, readReg t d)

/-- One step of the vectors' machine, whose store holds the one word. -/
def oneStep (w : Word) (regs : List (RegIdx × Word)) (d : RegIdx) : Option (RunStatus × Word × Word) :=
  look (step (machine regs [w])) d

/-! ### Well-formedness: one ill-formed reset for each check -/

theorem test_wf_default : ResetArgs.wellFormed {} = true := by decide

theorem test_wf_refuses_31_registers :
    ({ registers := List.replicate 31 0 } : ResetArgs).registersFit = false ∧
    ({ registers := List.replicate 31 0 } : ResetArgs).wellFormed = false := by decide

theorem test_wf_refuses_repeated_address :
    ({ memory := [(4, 1), (8, 2), (4, 3)] } : ResetArgs).memoryIsMap = false ∧
    ({ memory := [(4, 1), (8, 2), (4, 3)] } : ResetArgs).wellFormed = false := by decide

/-- A store of 2^32 words: the longest that R2 forbids by one. -/
theorem test_wf_refuses_long_program :
    ({ program := List.replicate 4294967296 0 } : ResetArgs).programFits = false ∧
    ({ program := List.replicate 4294967296 0 } : ResetArgs).wellFormed = false := by
  simp only [ResetArgs.wellFormed, ResetArgs.programFits, Config.maxProgramLength, List.length_replicate]
  exact ⟨by decide, by rw [Bool.and_eq_false_iff]; exact .inr (by decide)⟩

/-! ### Decoding: every constructor from a word written out bit by bit (R46 to R54) -/

/-- Vector D6, 0x00084900. -/
theorem test_decode_sll : decode 0b000000_00000_01000_01001_00100_000000 = .ok (.sll 0 8 9 4) := by decide

/-- Vector H9, 0x00084902. -/
theorem test_decode_srl : decode 0b000000_00000_01000_01001_00100_000010 = .ok (.srl 0 8 9 4) := by decide

/-- Vector H14, 0x00084903. -/
theorem test_decode_sra : decode 0b000000_00000_01000_01001_00100_000011 = .ok (.sra 0 8 9 4) := by decide

/-- Vector D7, 0x014B4804. -/
theorem test_decode_sllv : decode 0b000000_01010_01011_01001_00000_000100 = .ok (.sllv 10 11 9 0) := by decide

/-- Vector H26, 0x01484806. -/
theorem test_decode_srlv : decode 0b000000_01010_01000_01001_00000_000110 = .ok (.srlv 10 8 9 0) := by decide

/-- Vector H30, 0x01484807. -/
theorem test_decode_srav : decode 0b000000_01010_01000_01001_00000_000111 = .ok (.srav 10 8 9 0) := by decide

/-- Vector D3, 0x03FFFFCC. -/
theorem test_decode_syscall : decode 0b000000_11111_11111_11111_11111_001100 = .ok (.syscall 31 31 31 31) := by decide

/-- Vector D4, 0x01095020. -/
theorem test_decode_add : decode 0b000000_01000_01001_01010_00000_100000 = .ok (.add 8 9 10 0) := by decide

/-- Vector A14, 0x01095021. -/
theorem test_decode_addu : decode 0b000000_01000_01001_01010_00000_100001 = .ok (.addu 8 9 10 0) := by decide

/-- Vector A19, 0x01095022. -/
theorem test_decode_sub : decode 0b000000_01000_01001_01010_00000_100010 = .ok (.sub 8 9 10 0) := by decide

/-- Vector A28, 0x01095023. -/
theorem test_decode_subu : decode 0b000000_01000_01001_01010_00000_100011 = .ok (.subu 8 9 10 0) := by decide

/-- Vector L1, 0x01095024. -/
theorem test_decode_and : decode 0b000000_01000_01001_01010_00000_100100 = .ok (.and 8 9 10 0) := by decide

/-- Vector L8, 0x01095565. -/
theorem test_decode_or : decode 0b000000_01000_01001_01010_10101_100101 = .ok (.or 8 9 10 21) := by decide

/-- Vector L10, 0x01095026. -/
theorem test_decode_xor : decode 0b000000_01000_01001_01010_00000_100110 = .ok (.xor 8 9 10 0) := by decide

/-- Vector L14, 0x01095027. -/
theorem test_decode_nor : decode 0b000000_01000_01001_01010_00000_100111 = .ok (.nor 8 9 10 0) := by decide

/-- Vector D8, 0x2109FFFF. -/
theorem test_decode_addi : decode 0b001000_01000_01001_1111111111111111 = .ok (.addi 8 9 0xFFFF) := by decide

/-- Vector I16, 0x25098000. -/
theorem test_decode_addiu : decode 0b001001_01000_01001_1000000000000000 = .ok (.addiu 8 9 0x8000) := by decide

/-- Vector I19, 0x3109FF0F. -/
theorem test_decode_andi : decode 0b001100_01000_01001_1111111100001111 = .ok (.andi 8 9 0xFF0F) := by decide

/-- Vector I23, 0x35098001. -/
theorem test_decode_ori : decode 0b001101_01000_01001_1000000000000001 = .ok (.ori 8 9 0x8001) := by decide

/-- Vector I27, 0x3909FFFF. -/
theorem test_decode_xori : decode 0b001110_01000_01001_1111111111111111 = .ok (.xori 8 9 0xFFFF) := by decide

/-- Vector D12, 0x3FE91234. -/
theorem test_decode_lui : decode 0b001111_11111_01001_0001001000110100 = .ok (.lui 31 9 0x1234) := by decide

/-- Vector D9: the payload is the whole word. -/
theorem test_decode_invalidOpcode : decode 0xFC000000 = .error (.invalidOpcode 0xFC000000) := by decide

/-- Vector D21: the payload is the whole word. -/
theorem test_decode_invalidFunct : decode 0x03E00008 = .error (.invalidFunct 0x03E00008) := by decide

/-- The encoder writes the word of vector D12 back. -/
theorem test_encode_lui : encode (.lui 31 9 0x1234) = 0x3FE91234 := by decide

/-- The host's two ways in: the table word decodes, and the word placed at the pc is the one the next step runs. -/
theorem test_table_word :
    decodeTableWord 32 0x3C091234 = some (.lui 0 9 0x1234) ∧ decodeTableWord 32 0xFC000000 = none := by decide

theorem test_fetch_word :
    look (step (State.reset.withFetchWord 32 0x3C091234)) 9 = some (.running, 1, 0x12340000) := by decide

/-- Vector F1, seen through the STATUS output: code 1, the whole word, the pc kept. -/
theorem test_status_output :
    (answer (step (machine [(8, 1)] [0xFC000000]))).map statusOutput =
      some ⟨.faulted (.invalidOpcode 0xFC000000), 1, 0xFC000000, 0⟩ := by decide

/-! ### One step, at most two vectors for each instruction (95_test_vectors.md sections 3 to 7) -/

/-- Vector H4. -/
theorem test_sll_H4 : oneStep 0x00084FC0 [(8, 0x00000003)] 9 = some (.running, 1, 0x80000000) := by decide

/-- Vector H7. -/
theorem test_sll_H7 : oneStep 0x00084100 [(8, 0x12345678)] 8 = some (.running, 1, 0x23456780) := by decide

/-- Vector H9. -/
theorem test_srl_H9 : oneStep 0x00084902 [(8, 0x80000010)] 9 = some (.running, 1, 0x08000001) := by decide

/-- Vector H12. -/
theorem test_srl_H12 : oneStep 0x00284902 [(8, 0x80000010), (1, 0x00000007)] 9 =
    some (.running, 1, 0x08000001) := by decide

/-- Vector H14. -/
theorem test_sra_H14 : oneStep 0x00084903 [(8, 0x80000010)] 9 = some (.running, 1, 0xF8000001) := by decide

/-- Vector H17. -/
theorem test_sra_H17 : oneStep 0x00084843 [(8, 0xFFFFFFFF)] 9 = some (.running, 1, 0xFFFFFFFF) := by decide

/-- Vector H20. -/
theorem test_sllv_H20 : oneStep 0x01484804 [(8, 0x00000001), (10, 0x00000021)] 9 =
    some (.running, 1, 0x00000002) := by decide

/-- Vector H23. -/
theorem test_sllv_H23 : oneStep 0x01484804 [(8, 0xFFFFFFFF), (10, 0xFFFFFFE4)] 9 =
    some (.running, 1, 0xFFFFFFF0) := by decide

/-- Vector H26. -/
theorem test_srlv_H26 : oneStep 0x01484806 [(8, 0x80000000), (10, 0xFFFFFFFF)] 9 =
    some (.running, 1, 0x00000001) := by decide

/-- Vector H28. -/
theorem test_srlv_H28 : oneStep 0x01484806 [(8, 0xF0000000), (10, 0x00000004)] 9 =
    some (.running, 1, 0x0F000000) := by decide

/-- Vector H30. -/
theorem test_srav_H30 : oneStep 0x01484807 [(8, 0x80000000), (10, 0xFFFFFFFF)] 9 =
    some (.running, 1, 0xFFFFFFFF) := by decide

/-- Vector H33. -/
theorem test_srav_H33 : oneStep 0x01294807 [(9, 0x80000003)] 9 = some (.running, 1, 0xF0000000) := by decide

/-- Vector A3. -/
theorem test_add_A3 : oneStep 0x01095020 [(8, 0x7FFFFFFF), (9, 0x00000001), (10, 0xAAAAAAAA)] 10 =
    some (.faulted .integerOverflow, 0, 0xAAAAAAAA) := by decide

/-- Vector A10. -/
theorem test_add_A10 : oneStep 0x01090020 [(8, 0x7FFFFFFF), (9, 0x00000001)] 0 =
    some (.faulted .zeroRegisterWrite, 0, 0x00000000) := by decide

/-- Vector A14. -/
theorem test_addu_A14 : oneStep 0x01095021 [(8, 0x7FFFFFFF), (9, 0x00000001)] 10 =
    some (.running, 1, 0x80000000) := by decide

/-- Vector A17. -/
theorem test_addu_A17 : oneStep 0x01005021 [(8, 0xCAFEF00D)] 10 = some (.running, 1, 0xCAFEF00D) := by decide

/-- Vector A19. -/
theorem test_sub_A19 : oneStep 0x01095022 [(8, 0x00000005), (9, 0x00000007)] 10 =
    some (.running, 1, 0xFFFFFFFE) := by decide

/-- Vector A22. -/
theorem test_sub_A22 : oneStep 0x01095022 [(8, 0x00000000), (9, 0x80000000)] 10 =
    some (.faulted .integerOverflow, 0, 0x00000000) := by decide

/-- Vector A29. -/
theorem test_subu_A29 : oneStep 0x01095023 [(8, 0x80000000), (9, 0x00000001)] 10 =
    some (.running, 1, 0x7FFFFFFF) := by decide

/-- Vector A31. -/
theorem test_subu_A31 : oneStep 0x00095023 [(9, 0x80000000)] 10 = some (.running, 1, 0x80000000) := by decide

/-- Vector L1. -/
theorem test_and_L1 : oneStep 0x01095024 [(8, 0xFF00FF00), (9, 0x0FF00FF0)] 10 =
    some (.running, 1, 0x0F000F00) := by decide

/-- Vector L2. -/
theorem test_and_L2 : oneStep 0x01005024 [(8, 0x12345678)] 10 = some (.running, 1, 0x00000000) := by decide

/-- Vector L7. -/
theorem test_or_L7 : oneStep 0x00210825 [(1, 0x13572468)] 1 = some (.running, 1, 0x13572468) := by decide

/-- Vector L8. -/
theorem test_or_L8 : oneStep 0x01095565 [(8, 0x000000F0), (9, 0x0000000F)] 10 =
    some (.running, 1, 0x000000FF) := by decide

/-- Vector L10. -/
theorem test_xor_L10 : oneStep 0x01095026 [(8, 0xFF00FF00), (9, 0x0FF00FF0)] 10 =
    some (.running, 1, 0xF0F0F0F0) := by decide

/-- Vector L11. -/
theorem test_xor_L11 : oneStep 0x01085026 [(8, 0x12345678)] 10 = some (.running, 1, 0x00000000) := by decide

/-- Vector L14. -/
theorem test_nor_L14 : oneStep 0x01095027 [(8, 0xFF00FF00), (9, 0x0FF00FF0)] 10 =
    some (.running, 1, 0x000F000F) := by decide

/-- Vector L16. -/
theorem test_nor_L16 : oneStep 0x00005027 [] 10 = some (.running, 1, 0xFFFFFFFF) := by decide

/-- Vector I5. -/
theorem test_addi_I5 : oneStep 0x21098000 [(8, 0x80008000)] 9 = some (.running, 1, 0x80000000) := by decide

/-- Vector I3. -/
theorem test_addi_I3 : oneStep 0x2109FFFF [(8, 0x80000000)] 9 =
    some (.faulted .integerOverflow, 0, 0x00000000) := by decide

/-- Vector I16. -/
theorem test_addiu_I16 : oneStep 0x25098000 [(8, 0x00010000)] 9 = some (.running, 1, 0x00008000) := by decide

/-- Vector I13. -/
theorem test_addiu_I13 : oneStep 0x25090001 [(8, 0x7FFFFFFF)] 9 = some (.running, 1, 0x80000000) := by decide

/-- Vector I19. -/
theorem test_andi_I19 : oneStep 0x3109FF0F [(8, 0x12345678)] 9 = some (.running, 1, 0x00005608) := by decide

/-- Vector I20. -/
theorem test_andi_I20 : oneStep 0x3109FFFF [(8, 0xFFFFFFFF)] 9 = some (.running, 1, 0x0000FFFF) := by decide

/-- Vector I23. -/
theorem test_ori_I23 : oneStep 0x35098001 [(8, 0x12340000)] 9 = some (.running, 1, 0x12348001) := by decide

/-- Vector I26. -/
theorem test_ori_I26 : oneStep 0x35000001 [(8, 0x00000001)] 0 =
    some (.faulted .zeroRegisterWrite, 0, 0x00000000) := by decide

/-- Vector I27. -/
theorem test_xori_I27 : oneStep 0x3909FFFF [(8, 0x12345678)] 9 = some (.running, 1, 0x1234A987) := by decide

/-- Vector I28. -/
theorem test_xori_I28 : oneStep 0x39098000 [(8, 0x00008000)] 9 = some (.running, 1, 0x00000000) := by decide

/-- Vector I31. -/
theorem test_lui_I31 : oneStep 0x3C091234 [(9, 0xFFFFFFFF)] 9 = some (.running, 1, 0x12340000) := by decide

/-- Vector I36. -/
theorem test_lui_I36 : oneStep 0x3C001234 [] 0 = some (.faulted .zeroRegisterWrite, 0, 0x00000000) := by decide

/-- Vector Y1. -/
theorem test_syscall_Y1 : oneStep 0x0000000C [(2, 0x0000000A)] 2 = some (.halted, 0, 0x0000000A) := by decide

/-- Vector Y4: all 32 bits of register 2 are compared. -/
theorem test_syscall_Y4 : oneStep 0x0000000C [(2, 0x0001000A)] 2 =
    some (.faulted (.unsupportedSyscall 0x0001000A), 0, 0x0001000A) := by decide
/-! ### Witnesses: for each statement with hypotheses, a state and operands that meet them, one for each clause -/

/-- Registers 8, 9 and 10 hold values with both signs, register 1 and 31 are the ends of the register range. -/
def work : State := machine [(1, 3), (8, 0x80000010), (9, 0x7FFFFFFF), (10, 0x00000021), (31, 0xFFFFFFFF)] []

/-- An answer in which the destination differs from register 0 and holds v, with the pc moved on. -/
def ran (r : Result) (d : RegIdx) (v : Word) : Prop := d ≠ 0 ∧ look r d = some (.running, 1, v)

/-- An answer that records this fault and is otherwise the state before. -/
def took (r : Result) (s : State) (f : Fault) : Prop := answer r = some (s.withStatus (.faulted f))

theorem witness_EncodeInvertsDecode : decode 0x03FFFFCC = .ok (.syscall 31 31 31 31) := by decide

theorem witness_InvalidOpcodeExactlyOutsideTable :
    decode 0x04000000 = .error (.invalidOpcode 0x04000000) ∧ decode 0x40000000 = .error (.invalidOpcode 0x40000000) ∧
    decode 0xFFFFFFFF = .error (.invalidOpcode 0xFFFFFFFF) := by decide

theorem witness_InvalidFunctExactlyOutsideTable :
    decode 0x00000001 = .error (.invalidFunct 0x00000001) ∧ decode 0x00000028 = .error (.invalidFunct 0x00000028) ∧
    decode 0x0000003F = .error (.invalidFunct 0x0000003F) := by decide

theorem witness_IgnoredBitsChangeNothing :
    decode 0x00084900 = .ok (.sll 0 8 9 4) ∧
    0x00084900#32 &&& usedBits .sll = 0x03E84900#32 &&& usedBits .sll := by decide

theorem witness_SllShiftsLeftByField :
    ran (exec (.sll 0 8 1 31) work) 1 0 ∧ ran (exec (.sll 0 1 31 31) work) 31 0x80000000 ∧
    took (exec (.sll 0 8 0 4) work) work .zeroRegisterWrite := by unfold ran took; decide

theorem witness_SrlShiftsRightByField :
    ran (exec (.srl 0 8 1 31) work) 1 1 ∧ ran (exec (.srl 0 8 31 0) work) 31 0x80000010 ∧
    took (exec (.srl 0 8 0 4) work) work .zeroRegisterWrite := by unfold ran took; decide

theorem witness_SraDividesSignedByField :
    ran (exec (.sra 0 8 1 31) work) 1 0xFFFFFFFF ∧ ran (exec (.sra 0 9 31 31) work) 31 0 ∧
    took (exec (.sra 0 8 0 4) work) work .zeroRegisterWrite := by unfold ran took; decide

theorem witness_SllvShiftsLeftByRegister :
    ran (exec (.sllv 10 8 1 0) work) 1 0x00000020 ∧ ran (exec (.sllv 31 1 31 0) work) 31 0x80000000 ∧
    took (exec (.sllv 10 8 0 0) work) work .zeroRegisterWrite := by unfold ran took; decide

theorem witness_SrlvShiftsRightByRegister :
    ran (exec (.srlv 10 8 1 0) work) 1 0x40000008 ∧ ran (exec (.srlv 31 8 31 0) work) 31 1 ∧
    took (exec (.srlv 10 8 0 0) work) work .zeroRegisterWrite := by unfold ran took; decide

theorem witness_SravDividesSignedByRegister :
    ran (exec (.srav 10 8 1 0) work) 1 0xC0000008 ∧ ran (exec (.srav 31 8 31 0) work) 31 0xFFFFFFFF ∧
    took (exec (.srav 10 8 0 0) work) work .zeroRegisterWrite := by unfold ran took; decide

theorem witness_SyscallExitsOrFaults :
    (readUnsigned (machine [(2, 10)] []) 2 = 10 ∧
      answer (exec (.syscall 0 0 0 0) (machine [(2, 10)] [])) = some ((machine [(2, 10)] []).withStatus .halted)) ∧
    (readUnsigned (machine [(2, 11)] []) 2 ≠ 10 ∧
      took (exec (.syscall 0 0 0 0) (machine [(2, 11)] [])) (machine [(2, 11)] []) (.unsupportedSyscall 11)) ∧
    (readUnsigned work 2 ≠ 10 ∧ took (exec (.syscall 0 0 0 0) work) work (.unsupportedSyscall 0)) := by
  unfold took; decide

/-- The largest sum that fits, the smallest that does not, on each side. -/
theorem witness_AddChecksSignedSum :
    ran (exec (.add 8 9 10 0) (machine [(8, 0x7FFFFFFE), (9, 1)] [])) 10 0x7FFFFFFF ∧
    ran (exec (.add 8 9 10 0) (machine [(8, 0x80000001), (9, 0xFFFFFFFF)] [])) 10 0x80000000 ∧
    took (exec (.add 8 9 10 0) (machine [(8, 0x7FFFFFFF), (9, 1)] [])) (machine [(8, 0x7FFFFFFF), (9, 1)] [])
      .integerOverflow ∧
    took (exec (.add 8 9 10 0) (machine [(8, 0x80000000), (9, 0xFFFFFFFF)] []))
      (machine [(8, 0x80000000), (9, 0xFFFFFFFF)] []) .integerOverflow ∧
    took (exec (.add 8 9 0 0) work) work .zeroRegisterWrite := by unfold ran took; decide

theorem witness_AdduWrapsSum :
    ran (exec (.addu 31 1 1 0) work) 1 2 ∧ ran (exec (.addu 9 9 31 0) work) 31 0xFFFFFFFE ∧
    took (exec (.addu 8 9 0 0) work) work .zeroRegisterWrite := by unfold ran took; decide

theorem witness_SubChecksSignedDifference :
    ran (exec (.sub 8 9 10 0) (machine [(8, 0xFFFFFFFF), (9, 0x80000000)] [])) 10 0x7FFFFFFF ∧
    ran (exec (.sub 8 9 10 0) (machine [(8, 0x80000001), (9, 1)] [])) 10 0x80000000 ∧
    took (exec (.sub 8 9 10 0) (machine [(9, 0x80000000)] [])) (machine [(9, 0x80000000)] []) .integerOverflow ∧
    took (exec (.sub 8 9 10 0) (machine [(8, 0x80000000), (9, 1)] [])) (machine [(8, 0x80000000), (9, 1)] [])
      .integerOverflow ∧
    took (exec (.sub 8 9 0 0) work) work .zeroRegisterWrite := by unfold ran took; decide

theorem witness_SubuWrapsDifference :
    ran (exec (.subu 0 1 1 0) work) 1 0xFFFFFFFD ∧ ran (exec (.subu 8 1 31 0) work) 31 0x8000000D ∧
    took (exec (.subu 8 9 0 0) work) work .zeroRegisterWrite := by unfold ran took; decide

theorem witness_AndCombinesBits :
    ran (exec (.and 8 31 1 0) work) 1 0x80000010 ∧ ran (exec (.and 8 0 31 0) work) 31 0 ∧
    took (exec (.and 8 9 0 0) work) work .zeroRegisterWrite := by unfold ran took; decide

theorem witness_OrCombinesBits :
    ran (exec (.or 8 1 1 0) work) 1 0x80000013 ∧ ran (exec (.or 8 9 31 0) work) 31 0xFFFFFFFF ∧
    took (exec (.or 8 9 0 0) work) work .zeroRegisterWrite := by unfold ran took; decide

theorem witness_XorCombinesBits :
    ran (exec (.xor 8 31 1 0) work) 1 0x7FFFFFEF ∧ ran (exec (.xor 31 31 31 0) work) 31 0 ∧
    took (exec (.xor 8 9 0 0) work) work .zeroRegisterWrite := by unfold ran took; decide

theorem witness_NorSetsBitsClearInBoth :
    ran (exec (.nor 8 1 1 0) work) 1 0x7FFFFFEC ∧ ran (exec (.nor 0 0 31 0) work) 31 0xFFFFFFFF ∧
    took (exec (.nor 8 9 0 0) work) work .zeroRegisterWrite := by unfold ran took; decide

/-- Vectors I5 and I6 on the boundary, I4 and I7 one past it. -/
theorem witness_AddiChecksSignedSum :
    ran (exec (.addi 8 9 0x8000) (machine [(8, 0x80008000)] [])) 9 0x80000000 ∧
    ran (exec (.addi 8 9 0x7FFF) (machine [(8, 0x7FFF8000)] [])) 9 0x7FFFFFFF ∧
    took (exec (.addi 8 9 0x8000) (machine [(8, 0x80007FFF)] [])) (machine [(8, 0x80007FFF)] []) .integerOverflow ∧
    took (exec (.addi 8 9 0x7FFF) (machine [(8, 0x7FFF8001)] [])) (machine [(8, 0x7FFF8001)] []) .integerOverflow ∧
    took (exec (.addi 8 0 1) work) work .zeroRegisterWrite := by unfold ran took; decide

theorem witness_AddiuWrapsSignExtendedSum :
    ran (exec (.addiu 9 1 1) work) 1 0x80000000 ∧ ran (exec (.addiu 0 31 0x8000) work) 31 0xFFFF8000 ∧
    took (exec (.addiu 8 0 1) work) work .zeroRegisterWrite := by unfold ran took; decide

theorem witness_AndiMasksWithZeroExtended :
    ran (exec (.andi 31 1 0xFFFF) work) 1 0x0000FFFF ∧ ran (exec (.andi 31 31 0) work) 31 0 ∧
    took (exec (.andi 8 0 1) work) work .zeroRegisterWrite := by unfold ran took; decide

theorem witness_OriSetsWithZeroExtended :
    ran (exec (.ori 8 1 0x8001) work) 1 0x80008011 ∧ ran (exec (.ori 0 31 0xFFFF) work) 31 0x0000FFFF ∧
    took (exec (.ori 8 0 1) work) work .zeroRegisterWrite := by unfold ran took; decide

theorem witness_XoriFlipsWithZeroExtended :
    ran (exec (.xori 31 1 0xFFFF) work) 1 0xFFFF0000 ∧ ran (exec (.xori 31 31 0) work) 31 0xFFFFFFFF ∧
    took (exec (.xori 8 0 1) work) work .zeroRegisterWrite := by unfold ran took; decide

theorem witness_LuiWritesUpperHalf :
    ran (exec (.lui 31 1 0xFFFF) work) 1 0xFFFF0000 ∧ ran (exec (.lui 0 31 0) work) 31 0 ∧
    took (exec (.lui 0 0 0x1234) work) work .zeroRegisterWrite := by unfold ran took; decide

theorem witness_RegisterZeroReadsZero :
    (work.withStatus .halted).status ≠ .running ∧ inspectRegister (work.withStatus .halted) 0 = .ok 0 := by decide

theorem witness_WriteGuardProtectsRegisterZero :
    (writeReg work 0 7 = .error .zeroRegisterWrite) ∧
    ((1 : RegIdx) ≠ 0 ∧ ((writeReg work 1 7).toOption.map fun t => (readReg t 1, readReg t 31)) =
      some (7, 0xFFFFFFFF)) ∧
    ((31 : RegIdx) ≠ 0 ∧ ((writeReg work 31 7).toOption.map fun t => (readReg t 31, readReg t 1)) =
      some (7, 3)) := by decide

theorem witness_RegisterChangesOnlyByItsInstruction :
    (31 : RegIdx) ≠ 0 ∧
    ∃ t, step (machine [(8, 0x0000FFFF)] [0x00084900]) = .next t ∧
      readReg t 9 ≠ readReg (machine [(8, 0x0000FFFF)] [0x00084900]) 9 := ⟨by decide, _, rfl, by decide⟩

/-- Two states that agree on the sources of an add and on nothing else. -/
theorem witness_InstructionReadsAndWritesOnlyItsRegisters :
    (machine [(8, 5), (9, 6)] []).status = .running ∧ (machine [(8, 5), (9, 6), (31, 7)] [0]).status = .running ∧
    (∀ r ∈ sourcesOf (.add 8 9 10 0),
      readReg (machine [(8, 5), (9, 6)] []) r = readReg (machine [(8, 5), (9, 6), (31, 7)] [0]) r) ∧
    destOf (.add 8 9 10 0) ≠ some 9 ∧
    ∃ t, exec (.add 8 9 10 0) (machine [(8, 5), (9, 6)] []) = .next t ∧ t.status = .running :=
  ⟨by decide, by decide, by decide, by decide, _, rfl, by decide⟩

theorem witness_StepExecutesDecodedInstruction :
    (machine [] [0x3C091234]).status = .running ∧
    (machine [] [0x3C091234]).program[(machine [] [0x3C091234]).pc.toNat]? = some 0x3C091234 ∧
    decode 0x3C091234 = .ok (.lui 0 9 0x1234) := by decide

theorem witness_UndecodableWordTakesDecodeFault :
    (opcodeOf 0x40000000 ∉ knownOpcodes ∧
      took (step (machine [] [0x40000000])) (machine [] [0x40000000]) (.invalidOpcode 0x40000000)) ∧
    (opcodeOf 0x00000028 = 0 ∧ functOf 0x00000028 ∉ knownFuncts ∧
      took (step (machine [] [0x00000028])) (machine [] [0x00000028]) (.invalidFunct 0x00000028)) := by
  unfold took; decide

/-- A running state one past the end of a store of one word. -/
def atEnd : State := (machine [] [0x3C091234]).withPc 1

theorem sound_atEnd : Sound atEnd :=
  ⟨rfl, by decide, by decide, fun h => (nomatch h), fun _ h => (nomatch h)⟩

theorem witness_StepPastEndHaltsCleanly :
    (atEnd.status = .running ∧ atEnd.program.length ≤ atEnd.pc.toNat ∧
      answer (step atEnd) = some (atEnd.withStatus .halted)) ∧
    (ResetArgs.wellFormed {} = true ∧ ResetArgs.program {} = []) ∧
    (Sound atEnd ∧ atEnd.pc.toNat = atEnd.program.length) := ⟨by decide, by decide, sound_atEnd, by decide⟩

theorem witness_EndedRunStaysEnded :
    (work.withStatus .halted).status ≠ .running ∧ (work.withStatus (.faulted .integerOverflow)).status ≠ .running ∧
    answer (runSteps 3 (work.withStatus .halted)) = some (work.withStatus .halted) := by decide

theorem witness_PcMovesByOneOrStays :
    (machine [] [0x3C091234]).program.length ≤ 4294967295 ∧
    (∃ t, step (machine [] [0x3C091234]) = .next t ∧ t.status = .running ∧ t.pc.toNat = 1) ∧
    (∃ t, step (machine [] [0]) = .next t ∧ t.status ≠ .running ∧ t.pc.toNat = 0) ∧
    atEnd.program.length ≤ atEnd.pc.toNat :=
  ⟨by decide, ⟨_, rfl, by decide⟩, ⟨_, rfl, by decide⟩, by decide⟩

theorem witness_CommitIsAllOrNothing :
    (∃ t, step (machine [] [0x3C091234]) = .next t ∧ t.status = .running) ∧
    (∃ t, step (machine [(2, 10)] [0x0000000C]) = .next t ∧ t.status = .halted) ∧
    (∃ t, step (machine [] [0]) = .next t ∧ t.status = .faulted .zeroRegisterWrite) :=
  ⟨⟨_, rfl, by decide⟩, ⟨_, rfl, by decide⟩, ⟨_, rfl, by decide⟩⟩

/-- One state for each rank of the fault order, and the two ways of completing. -/
theorem witness_StepTakesFirstFaultInOrder :
    wordFault 0xFC000000 work = some (.invalidOpcode 0xFC000000) ∧
    wordFault 0x00000001 work = some (.invalidFunct 0x00000001) ∧
    wordFault 0x01200020 (machine [(9, 0x7FFFFFFF)] []) = some .zeroRegisterWrite ∧
    wordFault 0x01295020 (machine [(9, 0x7FFFFFFF)] []) = some .integerOverflow ∧
    wordFault 0x0000000C work = some (.unsupportedSyscall 0) ∧
    wordFault 0x01295021 (machine [(9, 0x7FFFFFFF)] []) = none ∧
    wordFault 0x0000000C (machine [(2, 10)] []) = none := by decide

theorem witness_OverflowRaisedExactlyByCheckedForms :
    (machine [(9, 0x7FFFFFFF)] []).status = .running ∧
    took (exec (.add 9 9 10 0) (machine [(9, 0x7FFFFFFF)] [])) (machine [(9, 0x7FFFFFFF)] []) .integerOverflow ∧
    overflows (.sub 0 9 10 0) (machine [(9, 0x80000000)] []) = true ∧
    overflows (.addi 9 10 1) (machine [(9, 0x7FFFFFFF)] []) = true := by unfold took; decide

theorem witness_ZeroWriteRaisedExactlyForDestinationZero :
    work.status = .running ∧ destOf (.lui 0 0 0x1234) = some 0 ∧ destOf (.add 9 9 0 0) = some 0 := by decide

theorem witness_SyscallDispatcherHasOneEntry :
    (10 : Word).toNat = 10 ∧ (11 : Word).toNat ≠ 10 ∧ (0x1000A : Word).toNat ≠ 10 := by decide

/-- Arguments with two memory cells, given out of order, and a program of two words. -/
def args : ResetArgs := { memory := [(0xFFFFFFFC, 2), (0, 1)], program := [0x2402000A, 0x0000000C] }

theorem witness_DataMemoryIsNeverTouched :
    args.wellFormed = true ∧
    (∃ t, runSteps 2 (loadedState args) = .next t ∧ t.mem.read 0 = some 1 ∧ t.mem.read 4 = none) :=
  ⟨by decide, _, rfl, by decide⟩

/-- A store that differs everywhere but at the pc. -/
theorem witness_OnlyTheWordAtThePcMatters :
    ([0x3C091234, 5, 6] : List Word)[(machine [] [0x3C091234]).pc.toNat]? =
      (machine [] [0x3C091234]).program[(machine [] [0x3C091234]).pc.toNat]? ∧
    ∃ t, step (machine [] [0x3C091234]) = .next t := ⟨by decide, _, rfl⟩

theorem witness_SoundStateStaysSound : Sound atEnd ∧ ∃ t, step atEnd = .next t := ⟨sound_atEnd, _, rfl⟩

theorem witness_LoadedStateIsSound : args.wellFormed = true := by decide

theorem witness_ResetGivesEveryStateItsValue :
    args.wellFormed = true ∧ (31 : RegIdx) ≠ 0 ∧ (loadedState args).mem.read 0xFFFFFFFC = some 2 := by decide

theorem witness_MalformedResetIsRefused :
    (List.replicate 33 (0 : Word)).length ≠ 32 ∧
    ¬ (([(4, 1), (4, 1)] : List (Addr × Word)).map Prod.fst).Nodup ∧
    4294967295 < (List.replicate 4294967296 (0 : Word)).length :=
  ⟨by decide, by decide, by rw [List.length_replicate]; decide⟩

theorem witness_EveryRunTerminates :
    atEnd.program.length ≤ 4294967295 ∧ atEnd.pc.toNat ≤ atEnd.program.length ∧
    work.program.length ≤ 4294967295 := by decide

theorem witness_NthStepRunsNthWord :
    args.wellFormed = true ∧ ∃ t, runSteps 1 (loadedState args) = .next t ∧ t.status = .running :=
  ⟨by decide, _, rfl, by decide⟩

/-- The three ends: the exit syscall, the end of the store, a fault. -/
theorem witness_FinalStateTellsHowTheRunEnded :
    (args.wellFormed = true ∧ ∃ t, run (loadedState args) = .next t ∧ t.status = .halted ∧ t.pc = 1) ∧
    (({ program := [0x3C091234] } : ResetArgs).wellFormed = true ∧
      ∃ t, run (loadedState { program := [0x3C091234] }) = .next t ∧ t.status = .halted ∧ t.pc = 1) ∧
    (({ program := [0] } : ResetArgs).wellFormed = true ∧
      ∃ t, run (loadedState { program := [0] }) = .next t ∧ t.status = .faulted .zeroRegisterWrite) :=
  ⟨⟨by decide, _, rfl, by decide⟩, ⟨by decide, _, rfl, by decide⟩, ⟨by decide, _, rfl, by decide⟩⟩

theorem witness_InspectionOnlyAfterTheRun :
    (work.withStatus .halted).status ≠ .running ∧ (work.withStatus (.faulted .integerOverflow)).status ≠ .running ∧
    work.status = .running := by decide

theorem witness_UncheckedTwinAgrees :
    work.status = .running ∧
    (∃ t, exec (.add 1 9 10 0) (machine [(1, 3)] []) = .next t ∧ t.status = .running) ∧
    (∃ t, exec (.sub 1 9 10 0) (machine [(1, 3)] []) = .next t ∧ t.status = .running) ∧
    (∃ t, exec (.addi 1 10 0xFFFF) (machine [(1, 3)] []) = .next t ∧ t.status = .running) :=
  ⟨by decide, ⟨_, rfl, by decide⟩, ⟨_, rfl, by decide⟩, ⟨_, rfl, by decide⟩⟩

theorem witness_LuiThenOriLoadsConstant : (1 : RegIdx) ≠ 0 ∧ (31 : RegIdx) ≠ 0 := by decide

theorem witness_ZeroWordFaultsAndSelfOrIsHarmless :
    ((machine [] [0]).status = .running ∧ (machine [] [0]).program[(machine [] [0]).pc.toNat]? = some 0) ∧
    ((1 : RegIdx) ≠ 0 ∧ answer (exec (.or 1 1 1 0) work) = some (work.withPc 1)) := by decide

end Sys2Proof.Tests
end

section
/-! SUPPORT. What an instruction and a step of a running state can do, said once, and from it the statements about
registers and the pc (spec/10_state.md rules R12 to R18); the reset values (rule R27). -/

namespace Sys2Proof.Machine

/-! ### One instruction, one running step -/

/-- Everything an instruction can do: commit a result to its destination, fault, or, for syscall, halt. -/
theorem exec_cases (i : Instr) (s : State) :
    (∃ d v, destOf i = some d ∧ d ≠ 0 ∧ exec i s = .next (committed s d v)) ∨
    (∃ f, exec i s = .next (s.withStatus (.faulted f))) ∨
    (∃ rs rt rd shamt, i = .syscall rs rt rd shamt ∧ readReg s 2 = 10 ∧
      exec i s = .next (s.withStatus .halted)) := by
  cases hd : destOf i with
  | none =>
    obtain ⟨rs, rt, rd, shamt, rfl⟩ := eq_syscall_of_destOf_none hd
    rw [exec_syscall]
    rcases execSyscall_cases rs rt rd shamt s with ⟨hcode, he⟩ | ⟨-, he⟩
    · exact .inr (.inr ⟨rs, rt, rd, shamt, rfl, hcode, he⟩)
    · exact .inr (.inl ⟨_, he⟩)
  | some d =>
    obtain ⟨result, hfin⟩ := exec_eq_finish hd s
    rw [hfin]
    rcases finish_cases d result s with ⟨-, he⟩ | ⟨-, f, -, he⟩ | ⟨hd0, v, -, he⟩
    · exact .inr (.inl ⟨_, he⟩)
    · exact .inr (.inl ⟨f, he⟩)
    · exact .inl ⟨d, v, rfl, hd0, he⟩

/-- Everything a step of a running state can do: complete the instruction at the pc, fault on the word at the pc, or
halt at an exit syscall or past the end of the store. -/
theorem step_running_cases {s : State} (h : s.status = .running) :
    (∃ w i d v, s.program[s.pc.toNat]? = some w ∧ decode w = .ok i ∧ destOf i = some d ∧ d ≠ 0 ∧
      step s = .next (committed s d v)) ∨
    (∃ w f, s.program[s.pc.toNat]? = some w ∧ step s = .next (s.withStatus (.faulted f))) ∨
    ((AtExit s ∨ s.program.length ≤ s.pc.toNat) ∧ step s = .next (s.withStatus .halted)) := by
  rcases step_cases s with ⟨hended, -⟩ | ⟨-, hnone, he⟩ | ⟨-, w, e, hw, -, he⟩ | ⟨-, w, i, hw, hi, hexec⟩
  · exact absurd h hended
  · exact .inr (.inr ⟨.inr (List.getElem?_eq_none_iff.1 hnone), he⟩)
  · exact .inr (.inl ⟨w, _, hw, he⟩)
  · rw [hexec]
    rcases exec_cases i s with ⟨d, v, hd, hd0, he⟩ | ⟨f, he⟩ | ⟨rs, rt, rd, shamt, rfl, hcode, he⟩
    · exact .inl ⟨w, i, d, v, hw, hi, hd, hd0, he⟩
    · exact .inr (.inl ⟨w, f, hw, he⟩)
    · exact .inr (.inr ⟨.inl ⟨w, rs, rt, rd, shamt, hw, hi, hcode⟩, he⟩)

/-- A pc at which a word stands is below `PROG_LEN`. -/
theorem pc_lt_of_fetched {s : State} {w : Word} (hw : s.program[s.pc.toNat]? = some w) :
    s.pc.toNat < s.program.length :=
  (List.getElem?_eq_some_iff.1 hw).1

/-- The pc does not wrap when an instruction of a store that fits completes (R19). -/
theorem pc_succ_toNat {s : State} {w : Word} (hfit : s.program.length ≤ 4294967295)
    (hw : s.program[s.pc.toNat]? = some w) : (s.pc + 1).toNat = s.pc.toNat + 1 := by
  have hlt := pc_lt_of_fetched hw
  bv_omega

/-! ### The ports of the register file -/

/-- A write to a register other than 0 is accepted. -/
theorem writeReg_ok (s : State) {r : RegIdx} (h : r ≠ 0) (v : Word) :
    writeReg s r v = .ok (s.withRegs (storeReg s.regs r v)) :=
  if_neg h

/-- Inspection of a register after the run answers what the register reads (R176). -/
theorem inspectRegister_ended {s : State} (h : s.status ≠ .running) (r : RegIdx) :
    inspectRegister s r = .ok (readReg s r) := by
  rcases afterRun_cases s (readReg s r) with ⟨hrun, -⟩ | ⟨-, he⟩
  · exact absurd hrun h
  · exact he

/-! ### Reset -/

/-- When no address is given twice, the loaded map holds exactly the given cells (R171). -/
theorem Memory.read_ofCells_iff {cells : List (Addr × Word)} (h : (cells.map Prod.fst).Nodup) (x : Addr) (v : Word) :
    (Memory.ofCells cells).read x = some v ↔ (x, v) ∈ cells := by
  induction cells with
  | nil => simp [Memory.ofCells, Memory.read]
  | cons c cells ih =>
    obtain ⟨a, u⟩ := c
    obtain ⟨hfresh, hnodup⟩ := List.nodup_cons.1 h
    rw [Memory.read_ofCells_cons]
    by_cases hx : x = a
    · subst hx
      have hnot : (x, v) ∉ cells := fun hm => hfresh (List.mem_map.2 ⟨_, hm, rfl⟩)
      simp [hnot, eq_comm]
    · simp [hx, ih hnodup]

/-- A loaded register other than 0 is the entry of the host's 32 words at its index. -/
theorem readReg_loadedState_entry {a : ResetArgs} (hlen : a.registers.length = 32) {r : RegIdx} (h : r ≠ 0) :
    some (readReg (loadedState a) r) = a.registers[r.toNat]? := by
  have hr : r.toNat < a.registers.length := hlen ▸ r.isLt
  simp [readReg_loadedState a h, hr]

/-- After a reset without arguments every register reads 0. -/
theorem readReg_reset (r : RegIdx) : readReg State.reset r = 0 := by
  by_cases h : r = 0
  · rw [h, readReg_zero]
  · simp [readReg_eq_cell _ h, State.reset]

/-- Loading 32 zero words gives the register file of the default reset. -/
theorem loadRegs_zeros : loadRegs (List.replicate 32 0) = Vector.replicate 31 0 := by
  refine Vector.ext fun i hi => ?_
  rw [loadRegs, Vector.getElem_ofFn, Vector.getElem_replicate]
  exact List.getD_replicate 0 (Nat.succ_lt_succ hi)

/-- Loading the default arguments of reset gives the default reset state. -/
theorem loadedState_default : loadedState ⟨List.replicate 32 0, [], []⟩ = State.reset :=
  State.ext_fields loadRegs_zeros rfl rfl rfl rfl

/-- A reset with arguments of the right shapes is accepted. -/
theorem resetLoad_wellFormed {a : ResetArgs} (h : a.wellFormed = true) : resetLoad a = .next (loadedState a) :=
  if_pos h

/-! ### The statements -/

/-- Settles O30: the read port forces zero, whatever state it reads. -/
theorem registerZeroReadsZero : Obligations.RegisterZeroReadsZero := by
  refine ⟨fun s => ?_, fun a => readReg_zero _, fun s hended => ?_⟩
  · have hread := readReg_zero s
    exact ⟨hread, congrArg BitVec.toNat hread, congrArg BitVec.toInt hread⟩
  · rw [inspectRegister_ended hended, readReg_zero]

/-- Settles O31, by the two outcomes of the write port. -/
theorem writeGuardProtectsRegisterZero : Obligations.WriteGuardProtectsRegisterZero := by
  intro s r v
  rcases writeReg_cases s r v with ⟨hr, he⟩ | ⟨hr, he⟩
  · exact ⟨fun _ => he, fun hne => absurd hr hne⟩
  · exact ⟨fun h0 => absurd h0 hr, fun _ => ⟨_, he, readReg_storeReg_self s hr v,
      fun q hq => readReg_storeReg_other s hr v hq, rfl, rfl, rfl, rfl⟩⟩

/-- Settles O32: of the outcomes of a step only the commit touches a register, and it touches its destination only. -/
theorem registerChangesOnlyByItsInstruction : Obligations.RegisterChangesOnlyByItsInstruction := by
  refine ⟨fun s r v hr => ?_, fun s t r hstep hchanged => ?_⟩
  · have hread := readReg_storeReg_self s hr v
    exact ⟨_, writeReg_ok s hr v, congrArg BitVec.toNat hread, congrArg BitVec.toInt hread⟩
  · have hrun : s.status = .running := by
      by_contra hended
      cases (step_ended hended).symm.trans hstep
      exact hchanged rfl
    rcases step_running_cases hrun with ⟨w, i, d, v, hw, hi, hd, hd0, he⟩ | ⟨w, f, -, he⟩ | ⟨-, he⟩ <;>
      cases he.symm.trans hstep
    · have hrd : r = d := by
        by_contra hne
        exact hchanged (readReg_committed_other s hd0 v hne)
      subst hrd
      exact ⟨hrun, hrun, hd0, w, i, hw, hi, hd⟩
    · exact absurd (readReg_withStatus ..) hchanged
    · exact absurd (readReg_withStatus ..) hchanged

/-- Settles O39, by the outcomes of a step of a running state. -/
theorem pcMovesByOneOrStays : Obligations.PcMovesByOneOrStays := by
  intro s t hfit hrun hstep
  rcases step_running_cases hrun with ⟨w, i, d, v, hw, -, -, -, he⟩ | ⟨w, f, hw, he⟩ | ⟨hend, he⟩ <;>
    cases he.symm.trans hstep
  case inl =>
    have hlt := pc_lt_of_fetched hw
    exact ⟨fun _ => pc_succ_toNat hfit hw, fun hne => absurd hrun hne,
      fun hhalt => absurd (hrun.symm.trans hhalt) nofun, fun hpast => absurd hlt (Nat.not_lt.2 hpast)⟩
  case inr.inl =>
    have hlt := pc_lt_of_fetched hw
    exact ⟨nofun, fun _ => rfl, nofun, fun hpast => absurd hlt (Nat.not_lt.2 hpast)⟩
  case inr.inr => exact ⟨nofun, fun _ => rfl, fun _ => hend, fun _ => rfl⟩

/-- Settles O51: an accepted load is read field by field; the default arguments load the default reset state. -/
theorem resetGivesEveryStateItsValue : Obligations.ResetGivesEveryStateItsValue := by
  refine ⟨fun a hwf => ?_, ?_, readReg_reset, rfl, rfl, fun _ => rfl, rfl⟩
  · obtain ⟨hregs, hmem, -⟩ := (ResetArgs.wellFormed_iff a).1 hwf
    exact ⟨_, resetLoad_wellFormed hwf, fun r hr => readReg_loadedState_entry hregs hr, readReg_zero _, rfl, rfl, rfl,
      Memory.read_ofCells_iff hmem⟩
  · rw [resetLoad_wellFormed (by decide), loadedState_default]

end Sys2Proof.Machine
end

section
/-! SUPPORT. The words that do not decode, said once for each dispatch and once for the decoder, and from it the
statements on its two errors (spec/30_encoding.md rules R55, R56). -/

namespace Sys2Proof.Machine

/-! ### The decode errors -/

/-- The dispatch on funct fails exactly for a funct outside the table of R53. -/
theorem decodeRegister_error_iff {w : Word} {e : DecodeError} :
    decodeRegister w = .error e ↔ functOf w ∉ knownFuncts ∧ e = .invalidFunct w := by
  unfold decodeRegister
  split
  case h_16 => -- the default arm: every funct of the table is excluded
    simp_all [knownFuncts, eq_comm]
  all_goals simp_all [knownFuncts]

/-- The dispatch on opcode, which no word of opcode 0 reaches, fails exactly for an opcode outside the table of R54. -/
theorem decodeImmediate_error_iff {w : Word} {e : DecodeError} (h : opcodeOf w ≠ 0) :
    decodeImmediate w = .error e ↔ opcodeOf w ∉ knownOpcodes ∧ e = .invalidOpcode w := by
  unfold decodeImmediate
  split
  case h_7 => -- the default arm: every opcode of the table is excluded
    simp_all [knownOpcodes, eq_comm]
  all_goals simp_all [knownOpcodes]

/-- Opcode 0 is in the table: its words dispatch on funct. -/
theorem zero_mem_knownOpcodes : (0 : BitVec 6) ∈ knownOpcodes := by decide

/-- The two ways a word does not decode. -/
theorem decode_error_iff {w : Word} {e : DecodeError} :
    decode w = .error e ↔
      (opcodeOf w ∉ knownOpcodes ∧ e = .invalidOpcode w) ∨
      (opcodeOf w = 0 ∧ functOf w ∉ knownFuncts ∧ e = .invalidFunct w) := by
  by_cases h : opcodeOf w = 0
  · rw [decode_of_register h, decodeRegister_error_iff]
    simp only [h, zero_mem_knownOpcodes, not_true_eq_false, false_and, true_and, false_or]
  · rw [decode_of_immediate h, decodeImmediate_error_iff h]
    simp only [h, false_and, or_false]

/-- R55 with its payload. -/
theorem decode_invalidOpcode_iff {w raw : Word} :
    decode w = .error (.invalidOpcode raw) ↔ opcodeOf w ∉ knownOpcodes ∧ raw = w := by
  simp [decode_error_iff]

/-- R56 with its payload. -/
theorem decode_invalidFunct_iff {w raw : Word} :
    decode w = .error (.invalidFunct raw) ↔ opcodeOf w = 0 ∧ functOf w ∉ knownFuncts ∧ raw = w := by
  simp [decode_error_iff]

/-! ### The statements -/

/-- Settles O5: an opcode outside the table is one of the two ways a word does not decode. -/
theorem invalidOpcodeExactlyOutsideTable : Obligations.InvalidOpcodeExactlyOutsideTable := by
  refine ⟨fun w => ?_, fun w raw hdec => ?_, by decide⟩
  · rw [decode_invalidOpcode_iff, and_iff_left rfl]
  · obtain ⟨-, hraw⟩ := decode_invalidOpcode_iff.1 hdec
    exact hraw

/-- Settles O6: a funct outside the table, under opcode 0, is the other way. -/
theorem invalidFunctExactlyOutsideTable : Obligations.InvalidFunctExactlyOutsideTable := by
  refine ⟨fun w => ?_, fun w raw hdec => ?_, by decide⟩
  · rw [decode_invalidFunct_iff, and_iff_left rfl]
  · obtain ⟨-, -, hraw⟩ := decode_invalidFunct_iff.1 hdec
    exact hraw

end Sys2Proof.Machine
end

section
/-! SUPPORT. The end of the store and the all-or-nothing commit: a step past the end, the run of an empty program, and
what a step changes by the status it leaves (spec/40_execution_common.md rules R75, R79; spec/60_exceptions.md rule
R146). -/

namespace Sys2Proof.Machine

/-! ### Past the end of the store -/

/-- With the pc past the store there is no word to fetch, and the run ends (R75). -/
theorem step_past_end {s : State} (hrun : s.status = .running) (hpast : s.program.length ≤ s.pc.toNat) :
    step s = .next (s.withStatus .halted) :=
  step_end hrun (List.getElem?_eq_none hpast)

/-- The bound `PROG_LEN + 1` on the steps of a run is one step for the empty program (R74). -/
theorem run_of_program_nil {s : State} (h : s.program = []) : run s = step s := by
  have hone : runSteps 1 s = step s := runSteps_succ_last (runSteps_zero s)
  rw [run, h, List.length_nil, hone]

/-! ### The statements -/

/-- Settles O36: past the end nothing is fetched. A loaded empty program has its pc there at once, and a sound pc goes
no further than one past the last word. -/
theorem stepPastEndHaltsCleanly : Obligations.StepPastEndHaltsCleanly := by
  refine ⟨fun s hrun hpast => step_past_end hrun hpast, fun a _ hempty => ⟨?_, loadedState_pc a⟩,
    fun s hsound hpast => Nat.le_antisymm hsound.pc hpast⟩
  have hprog : (loadedState a).program = [] := hempty
  have hpast : (loadedState a).program.length ≤ (loadedState a).pc.toNat := by rw [hprog]; exact Nat.zero_le _
  rw [run_of_program_nil hprog, step_past_end (loadedState_status a) hpast]

/-- Settles O40, by the outcomes of a step of a running state: the status that the step leaves tells the commit, the
fault and the halt apart, and only the commit changes anything else. -/
theorem commitIsAllOrNothing : Obligations.CommitIsAllOrNothing := by
  intro s t hrun hstep
  rcases step_running_cases hrun with ⟨w, i, d, v, hw, hi, hd, hd0, he⟩ | ⟨w, f, -, he⟩ | ⟨-, he⟩ <;>
    cases he.symm.trans hstep
  case inl =>
    exact ⟨fun _ => ⟨w, i, d, v, hw, hi, hd, hd0, completes_committed s hd0 v⟩,
      fun hhalt => absurd (hrun.symm.trans hhalt) nofun, fun g hfault => absurd (hrun.symm.trans hfault) nofun⟩
  case inr.inl =>
    refine ⟨nofun, nofun, fun g hfault => ?_⟩
    cases hfault
    rfl
  case inr.inr => exact ⟨nofun, fun _ => rfl, nofun⟩

end Sys2Proof.Machine
end

section
/-! SUPPORT. The round trip between decoder and encoder as rules (spec/30_encoding.md rule R63), the two outcomes of an
instruction whose computation cannot fault, and the shifts of a word as arithmetic; from them the statements on the six
shifts (spec/41_shifts.md rules R90 to R96). -/

namespace Sys2Proof.Machine

/-! ### The words of a register-type operation -/

/-- A register-type word is decoded by its funct, whatever its other fields hold. -/
theorem decode_registerWord (rs rt rd : RegIdx) (shamt : Shamt) (f : BitVec 6) :
    decode (registerWord rs rt rd shamt f) = decodeRegister (registerWord rs rt rd shamt f) :=
  decode_of_register (opcodeOf_registerWord ..)

/-- An immediate-type word whose opcode is not 0 is decoded by its opcode. -/
theorem decode_immediateWord {p : BitVec 6} (h : p ≠ 0) (rs rt : RegIdx) (imm : Imm16) :
    decode (immediateWord p rs rt imm) = decodeImmediate (immediateWord p rs rt imm) :=
  decode_of_immediate (by rwa [opcodeOf_immediateWord])

/-- Encoding and decoding again: the word's funct or opcode selects the arm, and its fields are the operands. -/
theorem decode_encode (i : Instr) : decode (encode i) = .ok i := by
  cases i
  case addi | addiu | andi | ori | xori | lui =>
    rw [encode, decode_immediateWord (by decide)]
    simp [decodeImmediate]
  all_goals
    rw [encode, decode_registerWord]
    simp [decodeRegister]

/-- Decoding and encoding again: a word is put together from its own fields. -/
theorem encode_of_decode {w : Word} {i : Instr} (h : decode w = .ok i) : encode i = w := by
  by_cases h0 : opcodeOf w = 0
  · rw [decode_of_register h0] at h
    have hw := registerWord_fields h0
    rcases decodeRegister_ok h with h | h | h | h | h | h | h | h | h | h | h | h | h | h | h <;>
      (obtain ⟨hf, rfl⟩ := h; rwa [hf] at hw)
  · rw [decode_of_immediate h0] at h
    have hw := immediateWord_fields w
    rcases decodeImmediate_ok h with h | h | h | h | h | h <;> (obtain ⟨hp, rfl⟩ := h; rwa [hp] at hw)

/-- An operation that the encoder gives this funct has exactly the words of opcode 0 and this funct. -/
theorem registerEncoding_of_encode {f : BitVec 6} {make : RegIdx → RegIdx → RegIdx → Shamt → Instr}
    (henc : ∀ rs rt rd shamt, encode (make rs rt rd shamt) = registerWord rs rt rd shamt f) :
    RegisterEncoding f make := by
  intro w
  constructor
  · rintro ⟨hop, hfunct⟩
    have hw : encode (make (rsOf w) (rtOf w) (rdOf w) (shamtOf w)) = w := by
      rw [henc, ← hfunct, registerWord_fields hop]
    have hdec := decode_encode (make (rsOf w) (rtOf w) (rdOf w) (shamtOf w))
    rwa [hw] at hdec
  · intro hdec
    have hw := encode_of_decode hdec
    rw [henc] at hw
    exact ⟨by rw [← hw, opcodeOf_registerWord], by rw [← hw, functOf_registerWord]⟩

/-! ### A computation that cannot fault -/

/-- With a result at hand the check order has two outcomes: it completes, or register 0 as destination faults. -/
theorem finish_ok_completes (d : RegIdx) (v : Word) (s : State) :
    (d ≠ 0 → ∃ t, finish d (.ok v) s = .next t ∧ Completes s d v t) ∧
    (d = 0 → finish d (.ok v) s = .next (s.withStatus (.faulted .zeroRegisterWrite))) := by
  constructor
  · intro hd
    exact ⟨_, finish_ok hd v s, completes_committed s hd v⟩
  · rintro rfl
    exact finish_zero _ s

/-! ### Shifts as arithmetic -/

/-- A left shift multiplies, the bits above the word lost (R91). -/
theorem shiftLeft_eq_ofNat {w : Nat} (x : BitVec w) (n : Nat) : x <<< n = BitVec.ofNat w (x.toNat * 2 ^ n) := by
  apply BitVec.eq_of_toNat_eq
  rw [BitVec.toNat_shiftLeft, Nat.shiftLeft_eq, BitVec.toNat_ofNat]

/-- A logical right shift divides the unsigned value (R92). -/
theorem ushiftRight_eq_ofNat {w : Nat} (x : BitVec w) (n : Nat) : x >>> n = BitVec.ofNat w (x.toNat / 2 ^ n) := by
  rw [← Nat.shiftRight_eq_div_pow, ← BitVec.toNat_ushiftRight, BitVec.ofNat_toNat, BitVec.setWidth_eq]

/-- An arithmetic right shift divides the signed value, rounding toward minus infinity (R93). -/
theorem sshiftRight_eq_ofInt {w : Nat} (x : BitVec w) (n : Nat) :
    x.sshiftRight n = BitVec.ofInt w (x.toInt / 2 ^ n) := by
  rw [BitVec.sshiftRight, Int.shiftRight_eq_div_pow]
  norm_cast

/-! ### The statements -/

/-- Settles O9: the left shift by the shamt field is a product modulo 2^32. -/
theorem sllShiftsLeftByField : Obligations.SllShiftsLeftByField := by
  refine ⟨registerEncoding_of_encode fun _ _ _ _ => rfl, fun rs rt rd shamt s => ?_⟩
  rw [exec_sll, shiftLeft_eq_ofNat]
  exact finish_ok_completes rd _ s

/-- Settles O10: the logical right shift by the shamt field is a quotient of the unsigned value. -/
theorem srlShiftsRightByField : Obligations.SrlShiftsRightByField := by
  refine ⟨registerEncoding_of_encode fun _ _ _ _ => rfl, fun rs rt rd shamt s => ?_⟩
  rw [exec_srl, ushiftRight_eq_ofNat]
  exact finish_ok_completes rd _ s

/-- Settles O11: the arithmetic right shift by the shamt field is a floored quotient of the signed value. -/
theorem sraDividesSignedByField : Obligations.SraDividesSignedByField := by
  refine ⟨registerEncoding_of_encode fun _ _ _ _ => rfl, fun rs rt rd shamt s => ?_⟩
  rw [exec_sra, sshiftRight_eq_ofInt]
  exact finish_ok_completes rd _ s

/-- Settles O12: as O9, the amount being the low five bits of a register. -/
theorem sllvShiftsLeftByRegister : Obligations.SllvShiftsLeftByRegister := by
  refine ⟨registerEncoding_of_encode fun _ _ _ _ => rfl, fun rs rt rd shamt s => ?_⟩
  rw [exec_sllv, shiftLeft_eq_ofNat, registerAmount_eq]
  exact finish_ok_completes rd _ s

/-- Settles O13: as O10, the amount being the low five bits of a register. -/
theorem srlvShiftsRightByRegister : Obligations.SrlvShiftsRightByRegister := by
  refine ⟨registerEncoding_of_encode fun _ _ _ _ => rfl, fun rs rt rd shamt s => ?_⟩
  rw [exec_srlv, ushiftRight_eq_ofNat, registerAmount_eq]
  exact finish_ok_completes rd _ s

/-- Settles O14: as O11, the amount being the low five bits of a register. -/
theorem sravDividesSignedByRegister : Obligations.SravDividesSignedByRegister := by
  refine ⟨registerEncoding_of_encode fun _ _ _ _ => rfl, fun rs rt rd shamt s => ?_⟩
  rw [exec_srav, sshiftRight_eq_ofInt, registerAmount_eq]
  exact finish_ok_completes rd _ s

end Sys2Proof.Machine
end

section
/-! SUPPORT. The outcomes of a checked form, and the wrapping difference as an integer; from them the statements
on register-type add and subtract (spec/42_arith_reg.md rules R100 to R104). -/

namespace Sys2Proof.Machine

/-! ### A checked computation -/

/-- With a checked result the check order has three outcomes: in range it completes with the 32 bits, out of range it
overflows, and register 0 as destination faults before the range is looked at (R105 (c), R150). -/
theorem finish_checked_outcomes (d : RegIdx) (n : Int) (s : State) :
    (d ≠ 0 → ¬ (n < -2147483648 ∨ 2147483647 < n) →
      ∃ t, finish d (checked n) s = .next t ∧ Completes s d (BitVec.ofInt 32 n) t) ∧
    (d ≠ 0 → (n < -2147483648 ∨ 2147483647 < n) →
      finish d (checked n) s = .next (s.withStatus (.faulted .integerOverflow))) ∧
    (d = 0 → finish d (checked n) s = .next (s.withStatus (.faulted .zeroRegisterWrite))) := by
  refine ⟨fun hd hin => ?_, fun hd hout => ?_, ?_⟩
  · rw [checked_of_in hin]
    exact (finish_ok_completes d _ s).1 hd
  · rw [checked_of_out hout]
    exact finish_error hd _ s
  · rintro rfl
    exact finish_zero _ s

/-! ### The wrapping difference as an integer -/

/-- A difference of words subtracts the unsigned values, the borrow lost (R104). -/
theorem sub_eq_ofInt {w : Nat} (x y : BitVec w) : x - y = BitVec.ofInt w ((x.toNat : Int) - y.toNat) := by
  apply BitVec.eq_of_toInt_eq
  rw [BitVec.toInt_sub, BitVec.toInt_ofInt, BitVec.toInt_eq_toNat_bmod, BitVec.toInt_eq_toNat_bmod, ← Int.sub_bmod]

/-! ### The statements -/

/-- Settles O16: add is the checked form of the exact signed sum. -/
theorem addChecksSignedSum : Obligations.AddChecksSignedSum := by
  refine ⟨registerEncoding_of_encode fun _ _ _ _ => rfl, fun rs rt rd shamt s => ?_⟩
  rw [exec_add]
  exact finish_checked_outcomes rd _ s

/-- Settles O17: addu is the sum of the unsigned values modulo 2^32. -/
theorem adduWrapsSum : Obligations.AdduWrapsSum := by
  refine ⟨registerEncoding_of_encode fun _ _ _ _ => rfl, fun rs rt rd shamt s => ?_⟩
  rw [exec_addu, BitVec.add_def]
  exact finish_ok_completes rd _ s

/-- Settles O18: sub is the checked form of the exact signed difference. -/
theorem subChecksSignedDifference : Obligations.SubChecksSignedDifference := by
  refine ⟨registerEncoding_of_encode fun _ _ _ _ => rfl, fun rs rt rd shamt s => ?_⟩
  rw [exec_sub]
  exact finish_checked_outcomes rd _ s

/-- Settles O19: subu is the difference of the unsigned values modulo 2^32. -/
theorem subuWrapsDifference : Obligations.SubuWrapsDifference := by
  refine ⟨registerEncoding_of_encode fun _ _ _ _ => rfl, fun rs rt rd shamt s => ?_⟩
  rw [exec_subu, sub_eq_ofInt]
  exact finish_ok_completes rd _ s

end Sys2Proof.Machine
end

section
/-! SUPPORT. A result given bit by bit, and the bits of a complemented or; from them the statements on the
register-type bitwise instructions (spec/43_logic_reg.md rules R110 to R114). -/

namespace Sys2Proof.Machine

/-! ### A result described by its bits -/

/-- `finish_ok_completes` with the result described by its 32 bits: the form in which R111 to R114 give a result. -/
theorem finish_ok_completes_bits (d : RegIdx) (s : State) {v : Word} {bit : Nat → Bool}
    (hbits : ∀ k < 32, v.getLsbD k = bit k) :
    (d ≠ 0 → ∃ t u, finish d (.ok v) s = .next t ∧ Completes s d u t ∧ ∀ k < 32, u.getLsbD k = bit k) ∧
    (d = 0 → finish d (.ok v) s = .next (s.withStatus (.faulted .zeroRegisterWrite))) := by
  obtain ⟨hcompletes, hfaults⟩ := finish_ok_completes d v s
  refine ⟨fun hd => ?_, hfaults⟩
  obtain ⟨t, hnext, hframe⟩ := hcompletes hd
  exact ⟨t, v, hnext, hframe, hbits⟩

/-- The complement of the or has a bit set exactly where both operands have it clear (R114). The bound is needed: the
complement sets no bit beyond the width. -/
theorem getLsbD_not_or {w k : Nat} (x y : BitVec w) (hk : k < w) :
    (~~~(x ||| y)).getLsbD k = (!x.getLsbD k && !y.getLsbD k) := by
  rw [BitVec.getLsbD_not, BitVec.getLsbD_or, Bool.not_or, decide_eq_true hk, Bool.true_and]

/-! ### The statements -/

/-- Settles O20: a bit of the and is the and of the bits. -/
theorem andCombinesBits : Obligations.AndCombinesBits := by
  refine ⟨registerEncoding_of_encode fun _ _ _ _ => rfl, fun rs rt rd shamt s => ?_⟩
  rw [exec_and]
  exact finish_ok_completes_bits rd s fun _ _ => BitVec.getLsbD_and

/-- Settles O21: a bit of the or is the or of the bits. -/
theorem orCombinesBits : Obligations.OrCombinesBits := by
  refine ⟨registerEncoding_of_encode fun _ _ _ _ => rfl, fun rs rt rd shamt s => ?_⟩
  rw [exec_or]
  exact finish_ok_completes_bits rd s fun _ _ => BitVec.getLsbD_or

/-- Settles O22: a bit of the exclusive or is the exclusive or of the bits. -/
theorem xorCombinesBits : Obligations.XorCombinesBits := by
  refine ⟨registerEncoding_of_encode fun _ _ _ _ => rfl, fun rs rt rd shamt s => ?_⟩
  rw [exec_xor]
  exact finish_ok_completes_bits rd s fun _ _ => BitVec.getLsbD_xor

/-- Settles O23: nor is the complement of the or, whose bits are clear exactly where both operands' are. -/
theorem norSetsBitsClearInBoth : Obligations.NorSetsBitsClearInBoth := by
  refine ⟨registerEncoding_of_encode fun _ _ _ _ => rfl, fun rs rt rd shamt s => ?_⟩
  rw [exec_nor]
  exact finish_ok_completes_bits rd s fun _ hk => getLsbD_not_or _ _ hk

end Sys2Proof.Machine
end

section
/-! SUPPORT. The words of an immediate-type operation, and the operands and results of the six as numbers; from them the
statements on the immediate-type instructions (spec/44_immediate.md rules R120 to R126). -/

namespace Sys2Proof.Machine

/-! ### The words of an immediate-type operation -/

/-- The round trip of R63 in both directions at once. -/
theorem decode_eq_ok_iff {w : Word} {i : Instr} : decode w = .ok i ↔ encode i = w := by
  constructor
  · exact encode_of_decode
  · rintro rfl
    exact decode_encode i

/-- An operation that the encoder gives this opcode has exactly the words of this opcode. -/
theorem immediateEncoding_of_encode {p : BitVec 6} {make : RegIdx → RegIdx → Imm16 → Instr}
    (henc : ∀ rs rt imm, encode (make rs rt imm) = immediateWord p rs rt imm) : ImmediateEncoding p make := by
  intro w
  rw [decode_eq_ok_iff, henc]
  constructor
  · rintro rfl
    exact immediateWord_fields w
  · intro hw
    rw [← hw, opcodeOf_immediateWord]

/-! ### Operands and results as numbers -/

/-- A sum of words adds the signed values, the carry out of the word lost (R121). -/
theorem add_eq_ofInt {w : Nat} (x y : BitVec w) : x + y = BitVec.ofInt w (x.toInt + y.toInt) := by
  rw [BitVec.ofInt_add, BitVec.ofInt_toInt, BitVec.ofInt_toInt]

/-- The unsigned form of the immediate is the word of its unsigned value (R49). -/
theorem unsignedImm_eq_ofNat (imm : Imm16) : unsignedImm imm = BitVec.ofNat 32 imm.toNat := by
  rw [← unsignedImm_toNat, BitVec.ofNat_toNat, BitVec.setWidth_eq]

/-- The shifted form of the immediate is the word of its unsigned value times 2^16 (R125). -/
theorem upperImm_eq_ofNat (imm : Imm16) : upperImm imm = BitVec.ofNat 32 (imm.toNat * 65536) := by
  rw [← upperImm_toNat, BitVec.ofNat_toNat, BitVec.setWidth_eq]

/-! ### The statements -/

/-- Settles O24: addi is the checked form of the exact sum with the signed immediate. -/
theorem addiChecksSignedSum : Obligations.AddiChecksSignedSum := by
  refine ⟨immediateEncoding_of_encode fun _ _ _ => rfl, fun rs rt imm s => ?_⟩
  rw [exec_addi]
  exact finish_checked_outcomes rt _ s

/-- Settles O25: addiu is the sum of the signed values modulo 2^32, and sign extension keeps the immediate's value. -/
theorem addiuWrapsSignExtendedSum : Obligations.AddiuWrapsSignExtendedSum := by
  refine ⟨immediateEncoding_of_encode fun _ _ _ => rfl, fun rs rt imm s => ?_⟩
  rw [exec_addiu, add_eq_ofInt, signedImm_toInt]
  exact finish_ok_completes rt _ s

/-- Settles O26: andi masks with the word of the immediate's unsigned value. -/
theorem andiMasksWithZeroExtended : Obligations.AndiMasksWithZeroExtended := by
  refine ⟨immediateEncoding_of_encode fun _ _ _ => rfl, fun rs rt imm s => ?_⟩
  rw [exec_andi, unsignedImm_eq_ofNat]
  exact finish_ok_completes rt _ s

/-- Settles O27: ori sets the bits of the word of the immediate's unsigned value. -/
theorem oriSetsWithZeroExtended : Obligations.OriSetsWithZeroExtended := by
  refine ⟨immediateEncoding_of_encode fun _ _ _ => rfl, fun rs rt imm s => ?_⟩
  rw [exec_ori, unsignedImm_eq_ofNat]
  exact finish_ok_completes rt _ s

/-- Settles O28: xori flips the bits of the word of the immediate's unsigned value. -/
theorem xoriFlipsWithZeroExtended : Obligations.XoriFlipsWithZeroExtended := by
  refine ⟨immediateEncoding_of_encode fun _ _ _ => rfl, fun rs rt imm s => ?_⟩
  rw [exec_xori, unsignedImm_eq_ofNat]
  exact finish_ok_completes rt _ s

/-- Settles O29: lui writes the shifted form of the immediate, in which no register occurs. -/
theorem luiWritesUpperHalf : Obligations.LuiWritesUpperHalf := by
  refine ⟨immediateEncoding_of_encode fun _ _ _ => rfl, fun rs rt imm s => ?_⟩
  rw [exec_lui, upperImm_eq_ofNat]
  exact finish_ok_completes rt _ s

end Sys2Proof.Machine
end

section
/-! SUPPORT. A register compared with a code in the unsigned view; from it the statement on syscall
(spec/45_syscall.md rule R130). -/

namespace Sys2Proof.Machine

/-- The unsigned view tells all 32 bits of a register (D31): it equals that of a word only for the word itself. -/
theorem readUnsigned_eq_toNat_iff {s : State} {r : RegIdx} {c : Word} :
    readUnsigned s r = c.toNat ↔ readReg s r = c :=
  BitVec.toNat_inj

/-! ### The statements -/

/-- Settles O15, by the two outcomes of syscall: the code in register 2 is that of exit, or it is not. -/
theorem syscallExitsOrFaults : Obligations.SyscallExitsOrFaults := by
  refine ⟨registerEncoding_of_encode fun _ _ _ _ => rfl, fun rs rt rd shamt s => ?_⟩
  have hview : readUnsigned s 2 = 10 ↔ readReg s 2 = 10 := readUnsigned_eq_toNat_iff (c := 10)
  rw [exec_syscall, ne_eq, hview]
  rcases execSyscall_cases rs rt rd shamt s with ⟨hexit, he⟩ | ⟨hother, he⟩
  · exact ⟨fun _ => he, fun hne => absurd hexit hne⟩
  · exact ⟨fun heq => absurd heq hother, fun _ => he⟩

end Sys2Proof.Machine
end

section
/-! SUPPORT. The fault that the order of R150 selects for an instruction, and that executing it takes exactly this
fault; from it the statements on the faults (spec/60_exceptions.md rules R141 to R144 and R150). -/

namespace Sys2Proof.Machine

/-! ### The checked forms -/

/-- The instructions with an exact signed result are add, sub and addi, each with its destination (R143). -/
theorem checkedForm_iff {i : Instr} {s : State} {d : RegIdx} {x : Int} :
    destOf i = some d ∧ exactSigned i s = some x ↔ ∃ rs,
      (∃ rt shamt, i = .add rs rt d shamt ∧ x = readSigned s rs + readSigned s rt) ∨
      (∃ rt shamt, i = .sub rs rt d shamt ∧ x = readSigned s rs - readSigned s rt) ∨
      (∃ imm, i = .addi rs d imm ∧ x = readSigned s rs + imm.toInt) := by
  constructor
  · rintro ⟨hd, hx⟩
    cases i
    case add rs rt rd shamt => cases hd; cases hx; exact ⟨rs, .inl ⟨rt, shamt, rfl, rfl⟩⟩
    case sub rs rt rd shamt => cases hd; cases hx; exact ⟨rs, .inr (.inl ⟨rt, shamt, rfl, rfl⟩)⟩
    case addi rs rt imm => cases hd; cases hx; exact ⟨rs, .inr (.inr ⟨imm, rfl, rfl⟩)⟩
    all_goals cases hx
  · rintro ⟨rs, ⟨rt, shamt, rfl, rfl⟩ | ⟨rt, shamt, rfl, rfl⟩ | ⟨imm, rfl, rfl⟩⟩ <;> exact ⟨rfl, rfl⟩

/-- A checked form runs its exact signed result through the range test (R105 (c)). -/
theorem exec_of_exactSigned {i : Instr} {s : State} {d : RegIdx} {x : Int} (hd : destOf i = some d)
    (hx : exactSigned i s = some x) : exec i s = finish d (checked x) s := by
  obtain ⟨rs, ⟨rt, shamt, rfl, rfl⟩ | ⟨rt, shamt, rfl, rfl⟩ | ⟨imm, rfl, rfl⟩⟩ := checkedForm_iff.1 ⟨hd, hx⟩
  · exact exec_add ..
  · exact exec_sub ..
  · exact exec_addi ..

/-- Every other instruction with a destination has a result that cannot fault. -/
theorem exec_of_exactSigned_none {i : Instr} {s : State} {d : RegIdx} (hd : destOf i = some d)
    (hx : exactSigned i s = none) : ∃ v, exec i s = finish d (.ok v) s := by
  cases i
  case add | sub | addi => cases hx
  case syscall => cases hd
  all_goals
    cases hd
    exact ⟨_, rfl⟩

/-- The overflow test of the statements, as the exact result out of range. -/
theorem overflows_iff {i : Instr} {s : State} :
    overflows i s = true ↔ ∃ x, exactSigned i s = some x ∧ (x < -2147483648 ∨ 2147483647 < x) := by
  unfold overflows
  cases exactSigned i s <;> simp

/-- With a destination, overflow is the fault of the computation. -/
theorem exec_of_overflows {i : Instr} {s : State} {d : RegIdx} (hd : destOf i = some d) (h : overflows i s = true) :
    exec i s = finish d (.error .integerOverflow) s := by
  obtain ⟨x, hx, hout⟩ := overflows_iff.1 h
  rw [exec_of_exactSigned hd hx, checked_of_out hout]

/-- With a destination and no overflow, the computation has a result. -/
theorem exec_of_not_overflows {i : Instr} {s : State} {d : RegIdx} (hd : destOf i = some d)
    (h : ¬ overflows i s = true) : ∃ v, exec i s = finish d (.ok v) s := by
  cases hx : exactSigned i s with
  | none => exact exec_of_exactSigned_none hd hx
  | some x =>
    have hin : ¬ (x < -2147483648 ∨ 2147483647 < x) := fun hout => h (overflows_iff.2 ⟨x, hx, hout⟩)
    exact ⟨_, by rw [exec_of_exactSigned hd hx, checked_of_in hin]⟩

/-! ### The fault that the order selects -/

/-- The order of R150 for an instruction with a destination. -/
theorem expectedFault_of_dest {i : Instr} {d : RegIdx} (hd : destOf i = some d) (s : State) :
    expectedFault i s =
      if d = 0 then some .zeroRegisterWrite else if overflows i s then some .integerOverflow else none := by
  simp only [expectedFault, hd]

/-- The order of R150 for syscall, which has no destination (D8). -/
theorem expectedFault_of_no_dest {i : Instr} (hd : destOf i = none) (s : State) :
    expectedFault i s = if readReg s 2 = 10 then none else some (.unsupportedSyscall (readReg s 2)) := by
  simp only [expectedFault, hd]

/-- The order selects ZeroRegisterWrite by the destination alone (R144). -/
theorem expectedFault_zeroRegisterWrite_iff {i : Instr} {s : State} :
    expectedFault i s = some .zeroRegisterWrite ↔ destOf i = some 0 := by
  cases hd : destOf i with
  | none => rw [expectedFault_of_no_dest hd]; split <;> simp
  | some d => rw [expectedFault_of_dest hd]; split_ifs <;> simp_all

/-- The order selects IntegerOverflow behind the destination check (R143). -/
theorem expectedFault_integerOverflow_iff {i : Instr} {s : State} :
    expectedFault i s = some .integerOverflow ↔ ∃ d, destOf i = some d ∧ d ≠ 0 ∧ overflows i s = true := by
  cases hd : destOf i with
  | none => rw [expectedFault_of_no_dest hd]; split <;> simp
  | some d => rw [expectedFault_of_dest hd]; split_ifs <;> simp_all

/-! ### Execution takes the selected fault -/

/-- Everything an instruction can do, by what the order of R150 selects: it takes the selected fault; with none selected
it commits to its destination or, for the exit syscall, halts. -/
theorem exec_by_expectedFault (i : Instr) (s : State) :
    (∃ f, expectedFault i s = some f ∧ exec i s = .next (s.withStatus (.faulted f))) ∨
    (expectedFault i s = none ∧ ∃ d v, destOf i = some d ∧ d ≠ 0 ∧ exec i s = .next (committed s d v)) ∨
    (expectedFault i s = none ∧ ∃ rs rt rd shamt, i = .syscall rs rt rd shamt ∧ readReg s 2 = 10 ∧
      exec i s = .next (s.withStatus .halted)) := by
  cases hd : destOf i with
  | none =>
    obtain ⟨rs, rt, rd, shamt, rfl⟩ := eq_syscall_of_destOf_none hd
    rw [exec_syscall, expectedFault_of_no_dest hd]
    rcases execSyscall_cases rs rt rd shamt s with ⟨hcode, he⟩ | ⟨hcode, he⟩
    · exact .inr (.inr ⟨if_pos hcode, rs, rt, rd, shamt, rfl, hcode, he⟩)
    · exact .inl ⟨_, if_neg hcode, he⟩
  | some d =>
    rw [expectedFault_of_dest hd]
    by_cases hd0 : d = 0
    · obtain ⟨result, he⟩ := exec_eq_finish hd s
      rw [he, hd0, finish_zero]
      exact .inl ⟨_, if_pos rfl, rfl⟩
    rw [if_neg hd0]
    by_cases hover : overflows i s = true
    · rw [exec_of_overflows hd hover, finish_error hd0]
      exact .inl ⟨_, if_pos hover, rfl⟩
    · obtain ⟨v, he⟩ := exec_of_not_overflows hd hover
      rw [he, finish_ok hd0]
      exact .inr (.inl ⟨if_neg hover, d, v, rfl, hd0, rfl⟩)

/-- Equal answers leave equal statuses. -/
theorem status_eq_of_next_eq {s t : State} (h : (.next s : Result) = .next t) : s.status = t.status :=
  congrArg State.status (Host.Outcome.next.inj h)

/-- In a running state an instruction takes a fault exactly when the order of R150 selects it. -/
theorem exec_faults_iff {i : Instr} {s : State} (hrun : s.status = .running) {f : Fault} :
    exec i s = .next (s.withStatus (.faulted f)) ↔ expectedFault i s = some f := by
  rcases exec_by_expectedFault i s with ⟨g, hg, he⟩ | ⟨hnone, d, v, -, -, he⟩ | ⟨hnone, _, _, _, _, -, -, he⟩
  · rw [he, hg]
    constructor
    · intro h
      rw [RunStatus.faulted.inj (status_eq_of_next_eq h)]
    · intro h
      rw [Option.some.inj h]
  · rw [he, hnone]
    refine ⟨fun h => ?_, nofun⟩
    have hstatus := status_eq_of_next_eq h
    rw [committed_status, hrun] at hstatus
    cases hstatus
  · rw [he, hnone]
    exact ⟨fun h => absurd (status_eq_of_next_eq h) nofun, nofun⟩

/-! ### From the instruction to the word at the pc -/

/-- A step on a word that decodes executes the instruction. -/
theorem step_ok {s : State} {w : Word} {i : Instr} (h : s.status = .running)
    (hf : s.program[s.pc.toNat]? = some w) (hd : decode w = .ok i) : step s = exec i s := by
  simp [step, h, fetch, hf, hd]

/-- A decode error ranks first in the order of R150. -/
theorem wordFault_of_error {w : Word} {e : DecodeError} (h : decode w = .error e) (s : State) :
    wordFault w s = some (decodeFault e) := by
  cases e <;> simp [wordFault, h, decodeFault]

/-- Behind the decoder the order is that of the instruction. -/
theorem wordFault_of_ok {w : Word} {i : Instr} (h : decode w = .ok i) (s : State) :
    wordFault w s = expectedFault i s := by
  simp [wordFault, h]

/-! ### The statements -/

/-- Settles O35, by the two ways a word does not decode. -/
theorem undecodableWordTakesDecodeFault : Obligations.UndecodableWordTakesDecodeFault := by
  intro s w hrun hw
  constructor
  · intro hop
    exact step_error hrun hw (decode_invalidOpcode_iff.2 ⟨hop, rfl⟩)
  · intro hop hfunct
    exact step_error hrun hw (decode_invalidFunct_iff.2 ⟨hop, hfunct, rfl⟩)

/-- Settles O41: a word that does not decode takes its decode fault; one that decodes executes by the order. -/
theorem stepTakesFirstFaultInOrder : Obligations.StepTakesFirstFaultInOrder := by
  intro s w hrun hw
  cases hdec : decode w with
  | error e =>
    rw [wordFault_of_error hdec, step_error hrun hw hdec]
    refine ⟨fun f hf => ?_, nofun⟩
    rw [Option.some.inj hf]
  | ok i =>
    rw [wordFault_of_ok hdec, step_ok hrun hw hdec]
    refine ⟨fun f hf => (exec_faults_iff hrun).2 hf, fun hnone => ?_⟩
    rcases exec_by_expectedFault i s with ⟨f, hf, -⟩ | ⟨-, d, v, hd, hd0, he⟩ | ⟨-, rs, rt, rd, shamt, rfl, hcode, he⟩
    · exact absurd (hnone.symm.trans hf) nofun
    · exact .inl ⟨i, d, v, _, rfl, hd, he, completes_committed s hd0 v⟩
    · exact .inr ⟨⟨w, rs, rt, rd, shamt, hw, hdec, hcode⟩, he⟩

/-- Settles O42: the order selects overflow for a checked form behind the destination check, and the checked forms are
add, sub and addi. -/
theorem overflowRaisedExactlyByCheckedForms : Obligations.OverflowRaisedExactlyByCheckedForms := by
  intro i s hrun
  rw [exec_faults_iff hrun, expectedFault_integerOverflow_iff]
  constructor
  · rintro ⟨d, hd, hd0, hover⟩
    obtain ⟨x, hx, hout⟩ := overflows_iff.1 hover
    obtain ⟨rs, hform⟩ := checkedForm_iff.1 ⟨hd, hx⟩
    exact ⟨rs, d, hd0, x, hout, hform⟩
  · rintro ⟨rs, d, hd0, x, hout, hform⟩
    obtain ⟨hd, hx⟩ := checkedForm_iff.2 ⟨rs, hform⟩
    exact ⟨d, hd, hd0, overflows_iff.2 ⟨x, hx, hout⟩⟩

/-- Settles O43: the order selects the rejected write by the destination alone, and syscall has none. -/
theorem zeroWriteRaisedExactlyForDestinationZero : Obligations.ZeroWriteRaisedExactlyForDestinationZero := by
  refine ⟨fun i s hrun => ?_, fun _ _ _ _ => rfl⟩
  rw [exec_faults_iff hrun, expectedFault_zeroRegisterWrite_iff]

end Sys2Proof.Machine
end

section
/-! SUPPORT. The outcomes of a running step with the fault it takes explained, and what every step keeps; from it the
statements on sound states (spec/10_state.md rules R19, R21; spec/40_execution_common.md rules R74 to R76). -/

namespace Sys2Proof.Machine

/-! ### The outcomes of a step, explained -/

/-- Everything a step of a running state can do, with its end explained by the word at the pc: it completes, takes the
fault that this word raises, or halts at one of the two clean ends (R76). -/
theorem step_running_explained {s : State} (hrun : s.status = .running) :
    (∃ w d v t, s.program[s.pc.toNat]? = some w ∧ step s = .next t ∧ Completes s d v t) ∨
    (∃ f, AtFault s f ∧ step s = .next (s.withStatus (.faulted f))) ∨
    ((AtExit s ∨ s.program.length ≤ s.pc.toNat) ∧ step s = .next (s.withStatus .halted)) := by
  cases hw : s.program[s.pc.toNat]? with
  | none => exact .inr (.inr ⟨.inr (List.getElem?_eq_none_iff.1 hw), step_end hrun hw⟩)
  | some w =>
    obtain ⟨hfaults, hclean⟩ := stepTakesFirstFaultInOrder s w hrun hw
    cases hf : wordFault w s with
    | some f => exact .inr (.inl ⟨f, ⟨w, hw, hf⟩, hfaults f hf⟩)
    | none =>
      rcases hclean hf with ⟨_, d, v, t, -, -, he, hcompletes⟩ | ⟨hexit, he⟩
      · exact .inl ⟨w, d, v, t, rfl, he, hcompletes⟩
      · exact .inr (.inr ⟨.inl hexit, he⟩)

/-- An instruction stands at the pc of an exit. -/
theorem AtExit.pc_lt {s : State} (h : AtExit s) : s.pc.toNat < s.program.length := by
  obtain ⟨_, _, _, _, _, hw, -⟩ := h
  exact pc_lt_of_fetched hw

/-- An instruction stands at the pc of a fault. -/
theorem AtFault.pc_lt {s : State} {f : Fault} (h : AtFault s f) : s.pc.toNat < s.program.length := by
  obtain ⟨_, hw, -⟩ := h
  exact pc_lt_of_fetched hw

/-- Whether an exit stands at the pc does not depend on the run status. -/
theorem atExit_withStatus {s : State} {u : RunStatus} : AtExit (s.withStatus u) ↔ AtExit s := Iff.rfl

/-- Which fault the word at the pc raises does not depend on the run status. -/
theorem atFault_withStatus {s : State} {u : RunStatus} {f : Fault} : AtFault (s.withStatus u) f ↔ AtFault s f := Iff.rfl

/-! ### Soundness -/

/-- A completion moves a sound state to a sound state, one instruction on. -/
theorem sound_of_completes {s t : State} {d : RegIdx} {v w : Word} (hs : Sound s) (hrun : s.status = .running)
    (hw : s.program[s.pc.toNat]? = some w) (h : Completes s d v t) : Sound t := by
  have hstatus : t.status = .running := h.status.trans hrun
  refine ⟨h.mem ▸ hs.memory, h.program ▸ hs.store, ?_, ?_, ?_⟩
  · rw [h.pc, h.program, pc_succ_toNat hs.store hw]
    exact pc_lt_of_fetched hw
  · intro hhalt
    exact absurd (hstatus.symm.trans hhalt) nofun
  · intro f hfault
    exact absurd (hstatus.symm.trans hfault) nofun

/-- A sound state stays sound when it takes the fault of the word at its pc. -/
theorem sound_withStatus_faulted {s : State} {f : Fault} (hs : Sound s) (h : AtFault s f) :
    Sound (s.withStatus (.faulted f)) := by
  refine ⟨hs.memory, hs.store, hs.pc, nofun, fun g hg => ?_⟩
  cases hg
  exact atFault_withStatus.2 h

/-- A sound state stays sound when it halts at one of the two clean ends. -/
theorem sound_withStatus_halted {s : State} (hs : Sound s) (h : AtExit s ∨ s.program.length ≤ s.pc.toNat) :
    Sound (s.withStatus .halted) := by
  refine ⟨hs.memory, hs.store, hs.pc, fun _ => ?_, nofun⟩
  rcases h with hexit | hpast
  · exact .inl (atExit_withStatus.2 hexit)
  · exact .inr (Nat.le_antisymm hs.pc hpast)

/-- The state that a well-shaped reset leaves is sound: it runs, at the first index of a store that fits. -/
theorem sound_loadedState {a : ResetArgs} (h : a.wellFormed = true) : Sound (loadedState a) := by
  obtain ⟨-, -, hfit⟩ := (ResetArgs.wellFormed_iff a).1 h
  exact ⟨Memory.ofCells_wf _, hfit, Nat.zero_le _, nofun, nofun⟩

/-! ### The statements -/

/-- Settles O48, by the outcomes of a step: an ended state stays, a completion moves the pc to an index that exists, and
each end is taken where its explanation stands. -/
theorem soundStateStaysSound : Obligations.SoundStateStaysSound := by
  intro s t hs hstep
  by_cases hrun : s.status = .running
  · rcases step_running_explained hrun with ⟨w, d, v, u, hw, he, hcompletes⟩ | ⟨f, hf, he⟩ | ⟨hend, he⟩ <;>
      cases he.symm.trans hstep
    · exact sound_of_completes hs hrun hw hcompletes
    · exact sound_withStatus_faulted hs hf
    · exact sound_withStatus_halted hs hend
  · cases (step_ended hrun).symm.trans hstep
    exact hs

/-- Settles O50: well-shaped arguments are accepted and load a sound state. -/
theorem loadedStateIsSound : Obligations.LoadedStateIsSound := by
  intro a hwf
  exact ⟨_, resetLoad_wellFormed hwf, sound_loadedState hwf⟩

/-- Settles O49: the default reset is a load of well-shaped arguments. -/
theorem resetStateIsSound : Obligations.ResetStateIsSound := by
  have hsound : Sound (loadedState ⟨List.replicate 32 0, [], []⟩) := sound_loadedState (by decide)
  rwa [loadedState_default] at hsound

end Sys2Proof.Machine
end

section
/-! SUPPORT. The instruction of an operation with the fields of a word, and which bits of a word determine it and its
effect; from it the statements on the decoder and the encoder (spec/30_encoding.md sections 5, 6 and 8). -/

namespace Sys2Proof.Machine

/-! ### The instruction of an operation with the fields of a word -/

/-- The instruction of this operation whose operands stand in the word's fields (R47, R48). -/
def instrOf (o : Op) (w : Word) : Instr :=
  match o with
  | .sll => .sll (rsOf w) (rtOf w) (rdOf w) (shamtOf w)
  | .srl => .srl (rsOf w) (rtOf w) (rdOf w) (shamtOf w)
  | .sra => .sra (rsOf w) (rtOf w) (rdOf w) (shamtOf w)
  | .sllv => .sllv (rsOf w) (rtOf w) (rdOf w) (shamtOf w)
  | .srlv => .srlv (rsOf w) (rtOf w) (rdOf w) (shamtOf w)
  | .srav => .srav (rsOf w) (rtOf w) (rdOf w) (shamtOf w)
  | .syscall => .syscall (rsOf w) (rtOf w) (rdOf w) (shamtOf w)
  | .add => .add (rsOf w) (rtOf w) (rdOf w) (shamtOf w)
  | .addu => .addu (rsOf w) (rtOf w) (rdOf w) (shamtOf w)
  | .sub => .sub (rsOf w) (rtOf w) (rdOf w) (shamtOf w)
  | .subu => .subu (rsOf w) (rtOf w) (rdOf w) (shamtOf w)
  | .and => .and (rsOf w) (rtOf w) (rdOf w) (shamtOf w)
  | .or => .or (rsOf w) (rtOf w) (rdOf w) (shamtOf w)
  | .xor => .xor (rsOf w) (rtOf w) (rdOf w) (shamtOf w)
  | .nor => .nor (rsOf w) (rtOf w) (rdOf w) (shamtOf w)
  | .addi => .addi (rsOf w) (rtOf w) (immOf w)
  | .addiu => .addiu (rsOf w) (rtOf w) (immOf w)
  | .andi => .andi (rsOf w) (rtOf w) (immOf w)
  | .ori => .ori (rsOf w) (rtOf w) (immOf w)
  | .xori => .xori (rsOf w) (rtOf w) (immOf w)
  | .lui => .lui (rsOf w) (rtOf w) (immOf w)

@[simp] theorem instrOf_op (o : Op) (w : Word) : (instrOf o w).op = o := by cases o <;> rfl

/-- An instruction is that of its operation with the fields of its own word. -/
theorem instrOf_encode (i : Instr) : instrOf i.op (encode i) = i := by
  cases i <;> simp [instrOf, Instr.op, encode]

/-! ### Fields under a mask -/

/-- Two words that agree under a mask agree in every field that the mask covers. -/
theorem extract_eq_of_and_eq {w w' m : Word} {lo n : Nat} (h : w &&& m = w' &&& m)
    (hm : m.extractLsb' lo n = BitVec.allOnes n) : w.extractLsb' lo n = w'.extractLsb' lo n := by
  have hfield := congrArg (BitVec.extractLsb' lo n) h
  rwa [BitVec.extractLsb'_and, BitVec.extractLsb'_and, hm, BitVec.and_allOnes, BitVec.and_allOnes] at hfield

/-- A word with the register-type match bits is put together from its own fields and this funct. -/
theorem registerWord_of_and_mask {w : Word} {f : BitVec 6} (h : w &&& 0xFC00003F = 0#26 ++ f) :
    registerWord (rsOf w) (rtOf w) (rdOf w) (shamtOf w) f = w := by
  rw [← registerWord_and_mask 0 0 0 0 f] at h
  have hop : opcodeOf w = 0 := (extract_eq_of_and_eq h (by decide)).trans (opcodeOf_registerWord ..)
  have hfunct : functOf w = f := (extract_eq_of_and_eq h (by decide)).trans (functOf_registerWord ..)
  rw [← hfunct]
  exact registerWord_fields hop

/-- A word with the immediate-type match bits is put together from its own fields and this opcode. -/
theorem immediateWord_of_and_mask {w : Word} {p : BitVec 6} (h : w &&& 0xFC000000 = p ++ 0#26) :
    immediateWord p (rsOf w) (rtOf w) (immOf w) = w := by
  rw [← immediateWord_and_mask p 0 0 0] at h
  have hop : opcodeOf w = p := (extract_eq_of_and_eq h (by decide)).trans (opcodeOf_immediateWord ..)
  rw [← hop]
  exact immediateWord_fields w

/-! ### The match and mask table -/

/-- The word of every instruction shows the fixed bits of its row. -/
theorem encode_and_opMask (i : Instr) : encode i &&& opMask i.op = opMatch i.op := by
  cases i
  case addi | addiu | andi | ori | xori | lui => exact immediateWord_and_mask ..
  all_goals exact registerWord_and_mask ..

/-- A word with the fixed bits of a row is the word of that row's operation with its own fields. -/
theorem encode_instrOf {o : Op} {w : Word} (h : w &&& opMask o = opMatch o) : encode (instrOf o w) = w := by
  cases o
  case addi | addiu | andi | ori | xori | lui => exact immediateWord_of_and_mask h
  all_goals exact registerWord_of_and_mask h

/-- What a word decodes to: the instruction of the row whose fixed bits it shows, with the word's own fields. -/
theorem decode_eq_ok_iff_instrOf {w : Word} {i : Instr} :
    decode w = .ok i ↔ w &&& opMask i.op = opMatch i.op ∧ i = instrOf i.op w := by
  rw [decode_eq_ok_iff]
  constructor
  · rintro rfl
    exact ⟨encode_and_opMask i, (instrOf_encode i).symm⟩
  · rintro ⟨hmatch, hi⟩
    rw [hi]
    exact encode_instrOf hmatch

/-! ### The ignored bits -/

/-- The bits that the decoder tests are among those that the operation uses. -/
theorem usedBits_and_opMask (o : Op) : usedBits o &&& opMask o = opMask o := by cases o <;> rfl

/-- The fields that reach an instruction's meaning are covered by its used bits (R58). -/
theorem exec_instrOf_of_used {o : Op} {w w' : Word} (h : w &&& usedBits o = w' &&& usedBits o) (s : State) :
    exec (instrOf o w') s = exec (instrOf o w) s := by
  cases o
  case syscall => rfl
  case lui =>
    have hrt : rtOf w = rtOf w' := extract_eq_of_and_eq h (by decide)
    have himm : immOf w = immOf w' := extract_eq_of_and_eq h (by decide)
    simp only [instrOf, exec_lui, hrt, himm]
  case sll | srl | sra =>
    have hrt : rtOf w = rtOf w' := extract_eq_of_and_eq h (by decide)
    have hrd : rdOf w = rdOf w' := extract_eq_of_and_eq h (by decide)
    have hshamt : shamtOf w = shamtOf w' := extract_eq_of_and_eq h (by decide)
    simp only [instrOf, exec_sll, exec_srl, exec_sra, hrt, hrd, hshamt]
  case addi | addiu | andi | ori | xori =>
    have hrs : rsOf w = rsOf w' := extract_eq_of_and_eq h (by decide)
    have hrt : rtOf w = rtOf w' := extract_eq_of_and_eq h (by decide)
    have himm : immOf w = immOf w' := extract_eq_of_and_eq h (by decide)
    simp only [instrOf, hrs, hrt, himm]
  all_goals
    have hrs : rsOf w = rsOf w' := extract_eq_of_and_eq h (by decide)
    have hrt : rtOf w = rtOf w' := extract_eq_of_and_eq h (by decide)
    have hrd : rdOf w = rdOf w' := extract_eq_of_and_eq h (by decide)
    simp only [instrOf, exec_sllv, exec_srlv, exec_srav, exec_add, exec_addu, exec_sub, exec_subu, exec_and, exec_or,
      exec_xor, exec_nor, hrs, hrt, hrd]

/-! ### The statements -/

/-- Settles O2: the round trip of R63 from the instruction. -/
theorem decodeInvertsEncode : Obligations.DecodeInvertsEncode := decode_encode

/-- Settles O3: the round trip of R63 from the word. -/
theorem encodeInvertsDecode : Obligations.EncodeInvertsDecode := fun _ _ => encode_of_decode

/-- Settles O4: the encoder builds every word by one of two layouts, whose weights are those of the spec. -/
theorem encodeLaysOutFields : Obligations.EncodeLaysOutFields := by
  constructor
  · intro rs rt rd shamt p hp
    fin_cases hp <;> exact registerWord_toNat ..
  · intro rs rt imm p hp
    fin_cases hp <;> exact immediateWord_toNat ..

/-- Settles O7: a word decodes to the operation whose fixed bits it shows. -/
theorem maskAndMatchSelectOperation : Obligations.MaskAndMatchSelectOperation := by
  intro o w
  constructor
  · rintro ⟨i, hdec, rfl⟩
    exact (decode_eq_ok_iff_instrOf.1 hdec).1
  · intro hmatch
    exact ⟨instrOf o w, decode_eq_ok_iff.2 (encode_instrOf hmatch), instrOf_op o w⟩

/-- Settles O8: the used bits hold the row's fixed bits, so the other word shows them too, and every field that the
meaning reads. -/
theorem ignoredBitsChangeNothing : Obligations.IgnoredBitsChangeNothing := by
  intro w w' i hdec hused
  obtain ⟨hmatch, hi⟩ := decode_eq_ok_iff_instrOf.1 hdec
  have hmatch' : w' &&& opMask i.op = opMatch i.op := by
    rw [← usedBits_and_opMask, ← BitVec.and_assoc, ← hused, BitVec.and_assoc, usedBits_and_opMask, hmatch]
  refine ⟨instrOf i.op w', decode_eq_ok_iff.2 (encode_instrOf hmatch'), instrOf_op .., fun s => ?_⟩
  rw [exec_instrOf_of_used hused, ← hi]

/-- Settles O1: each word is the encoding of its instruction, and the last two stand outside the tables. -/
theorem writtenOutWordsDecode : Obligations.WrittenOutWordsDecode := by
  unfold Obligations.WrittenOutWordsDecode
  simp only [decode_eq_ok_iff, decode_invalidOpcode_iff, decode_invalidFunct_iff]
  decide

end Sys2Proof.Machine
end

section
/-! SUPPORT. What an instruction and a step depend on: two states that agree on it get the same outcome; from it the
statements on what is read (spec/10_state.md rule R16; spec/20_memory.md rules R33, R36) and on totality
(spec/40_execution_common.md rule R83). -/

namespace Sys2Proof.Machine

/-! ### What an instruction depends on -/

/-- With a destination, the computation depends on the sources only (R16). -/
theorem exec_eq_finish_of_agree {i : Instr} {d : RegIdx} {s s' : State} (hd : destOf i = some d)
    (hagree : ∀ r ∈ sourcesOf i, readReg s r = readReg s' r) :
    ∃ result, exec i s = finish d result s ∧ exec i s' = finish d result s' := by
  cases i
  case syscall => cases hd
  case lui =>
    cases hd
    exact ⟨_, exec_lui .., exec_lui ..⟩
  all_goals
    cases hd
    simp only [sourcesOf, List.mem_cons, List.not_mem_nil, or_false, forall_eq_or_imp, forall_eq] at hagree
    simp only [exec_sll, exec_srl, exec_sra, exec_sllv, exec_srlv, exec_srav, exec_add, exec_addu, exec_sub, exec_subu,
      exec_and, exec_or, exec_xor, exec_nor, exec_addi, exec_addiu, exec_andi, exec_ori, exec_xori, readSigned, hagree]
    exact ⟨_, rfl, rfl⟩

/-- Two states that agree on an instruction's sources get the same outcome from it: the same result in the destination,
or the same new status. -/
theorem exec_of_agree (i : Instr) {s s' : State} (hagree : ∀ r ∈ sourcesOf i, readReg s r = readReg s' r) :
    (∃ d v, destOf i = some d ∧ d ≠ 0 ∧
      exec i s = .next (committed s d v) ∧ exec i s' = .next (committed s' d v)) ∨
    (∃ u, u ≠ .running ∧ exec i s = .next (s.withStatus u) ∧ exec i s' = .next (s'.withStatus u)) := by
  cases hd : destOf i with
  | none =>
    obtain ⟨rs, rt, rd, shamt, rfl⟩ := eq_syscall_of_destOf_none hd
    have hcode : readReg s 2 = readReg s' 2 := hagree 2 (List.mem_singleton_self 2)
    rw [exec_syscall, exec_syscall]
    rcases execSyscall_cases rs rt rd shamt s with ⟨h, he⟩ | ⟨h, he⟩ <;>
      rcases execSyscall_cases rs rt rd shamt s' with ⟨h', he'⟩ | ⟨h', he'⟩
    · exact .inr ⟨.halted, nofun, he, he'⟩
    · exact absurd (hcode.symm.trans h) h'
    · exact absurd (hcode.trans h') h
    · exact .inr ⟨.faulted (.unsupportedSyscall (readReg s 2)), nofun, he, hcode ▸ he'⟩
  | some d =>
    obtain ⟨result, he, he'⟩ := exec_eq_finish_of_agree hd hagree
    rw [he, he']
    by_cases hd0 : d = 0
    · rw [hd0, finish_zero, finish_zero]
      exact .inr ⟨.faulted .zeroRegisterWrite, nofun, rfl, rfl⟩
    · cases result with
      | error f =>
        rw [finish_error hd0, finish_error hd0]
        exact .inr ⟨.faulted f, nofun, rfl, rfl⟩
      | ok v =>
        rw [finish_ok hd0, finish_ok hd0]
        exact .inl ⟨d, v, rfl, hd0, rfl, rfl⟩

/-! ### What a step depends on -/

/-- Two states with the same status, the same word (or none) at the pc and the same registers get the same outcome from
a step: nothing, the same result in the same register, or the same new status. -/
theorem step_of_agree {s s' : State} (hstatus : s'.status = s.status)
    (hfetch : s'.program[s'.pc.toNat]? = s.program[s.pc.toNat]?) (hregs : ∀ r, readReg s r = readReg s' r) :
    (step s = .next s ∧ step s' = .next s') ∨
    (∃ d v, step s = .next (committed s d v) ∧ step s' = .next (committed s' d v)) ∨
    (∃ u, step s = .next (s.withStatus u) ∧ step s' = .next (s'.withStatus u)) := by
  rcases step_cases s with ⟨hended, he⟩ | ⟨hrun, hnone, he⟩ | ⟨hrun, w, e, hw, hdec, he⟩ | ⟨hrun, w, i, hw, hdec, he⟩
  · exact .inl ⟨he, step_ended (hstatus ▸ hended)⟩
  · exact .inr (.inr ⟨_, he, step_end (hstatus.trans hrun) (hfetch.trans hnone)⟩)
  · exact .inr (.inr ⟨_, he, step_error (hstatus.trans hrun) (hfetch.trans hw) hdec⟩)
  · rw [he, step_ok (hstatus.trans hrun) (hfetch.trans hw) hdec]
    rcases exec_of_agree i (fun r _ => hregs r) with ⟨d, v, -, -, hs, hs'⟩ | ⟨u, -, hs, hs'⟩
    · exact .inr (.inl ⟨d, v, hs, hs'⟩)
    · exact .inr (.inr ⟨u, hs, hs'⟩)

/-- A step does not look at the data memory. -/
theorem step_withMem {s t : State} (hstep : step s = .next t) (m : Memory) :
    step (s.withMem m) = .next (t.withMem m) := by
  rcases step_of_agree (s := s) (s' := s.withMem m) rfl rfl (fun _ => rfl) with
    ⟨he, he'⟩ | ⟨d, v, he, he'⟩ | ⟨u, he, he'⟩ <;>
    cases he.symm.trans hstep <;> exact he'

/-- A step looks at no word of the store but the one at the pc. -/
theorem step_withProgram {s t : State} {p : List Word} (hpc : p[s.pc.toNat]? = s.program[s.pc.toNat]?)
    (hstep : step s = .next t) : step (s.withProgram p) = .next (t.withProgram p) := by
  rcases step_of_agree (s := s) (s' := s.withProgram p) rfl hpc (fun _ => rfl) with
    ⟨he, he'⟩ | ⟨d, v, he, he'⟩ | ⟨u, he, he'⟩ <;>
    cases he.symm.trans hstep <;> exact he'

/-- A step writes neither the data memory nor the store. -/
theorem step_frame {s t : State} (hstep : step s = .next t) : t.mem = s.mem ∧ t.program = s.program := by
  rcases step_of_agree (s := s) rfl rfl (fun _ => rfl) with ⟨he, -⟩ | ⟨d, v, he, -⟩ | ⟨u, he, -⟩ <;>
    cases he.symm.trans hstep <;> exact ⟨rfl, rfl⟩

/-! ### Totality -/

/-- Every instruction has a next state. -/
theorem exec_answers (i : Instr) (s : State) : ∃ t, exec i s = .next t := by
  rcases exec_cases i s with ⟨d, v, -, -, he⟩ | ⟨f, he⟩ | ⟨_, _, _, _, -, -, he⟩ <;> exact ⟨_, he⟩

/-- Every step has a next state. -/
theorem step_answers (s : State) : ∃ t, step s = .next t := by
  rcases step_cases s with ⟨-, he⟩ | ⟨-, -, he⟩ | ⟨-, w, e, -, -, he⟩ | ⟨-, w, i, -, -, he⟩
  · exact ⟨_, he⟩
  · exact ⟨_, he⟩
  · exact ⟨_, he⟩
  · rw [he]
    exact exec_answers i s

/-! ### The statements -/

/-- Settles O33: agreeing on the sources gives the same outcome, and of the outcomes only the commit writes a register,
its destination. -/
theorem instructionReadsAndWritesOnlyItsRegisters : Obligations.InstructionReadsAndWritesOnlyItsRegisters := by
  refine ⟨fun i s s' t hrun hrun' hagree hexec => ?_, fun i s t r hexec hr => ?_⟩
  · rcases exec_of_agree i hagree with ⟨d, v, hd, hd0, he, he'⟩ | ⟨u, hu, he, he'⟩ <;> cases he.symm.trans hexec
    · refine ⟨_, he', hrun'.trans hrun.symm, fun _ q hq => ?_⟩
      cases hd.symm.trans hq
      rw [readReg_committed_self _ hd0, readReg_committed_self _ hd0]
    · exact ⟨_, he', rfl, fun h => absurd h hu⟩
  · rcases exec_cases i s with ⟨d, v, hd, hd0, he⟩ | ⟨f, he⟩ | ⟨_, _, _, _, -, -, he⟩ <;> cases he.symm.trans hexec
    · have hne : r ≠ d := fun hrd => hr (hrd ▸ hd)
      exact readReg_committed_other s hd0 v hne
    · exact readReg_withStatus ..
    · exact readReg_withStatus ..

/-- Settles O38, by the outcomes of a step and of an instruction. -/
theorem everyStepAnswersNext : Obligations.EveryStepAnswersNext := ⟨step_answers, exec_answers⟩

/-- Settles O47: the word at the pc is all of the store that a step depends on. -/
theorem onlyTheWordAtThePcMatters : Obligations.OnlyTheWordAtThePcMatters :=
  fun _ _ _ hpc hstep => step_withProgram hpc hstep

/-- Settles O34: behind fetch and decode a step of a running state is the instruction. -/
theorem stepExecutesDecodedInstruction : Obligations.StepExecutesDecodedInstruction :=
  fun _ _ _ hrun hw hdec => step_ok hrun hw hdec

end Sys2Proof.Machine
end

section
/-! SUPPORT. The induction over a run, what every run keeps, where its pc stands and how it ends; from it the statements
on runs (spec/40_execution_common.md rules R74 to R76; spec/10_state.md rule R21; spec/20_memory.md rules R33 to R35). -/

namespace Sys2Proof.Machine

/-! ### Inductions over a run -/

/-- What every step keeps holds after any number of steps. -/
theorem runSteps_induction {P : State → Prop} (hkeep : ∀ s t, P s → step s = .next t → P t) {n : Nat} {s t : State}
    (hs : P s) (h : runSteps n s = .next t) : P t := by
  induction n generalizing s with
  | zero =>
    cases h
    exact hs
  | succ n ih =>
    obtain ⟨u, hu⟩ := step_answers s
    rw [runSteps_succ hu] at h
    exact ih (hkeep s u hs hu) h

/-- In an ended run no number of steps changes anything (R21). -/
theorem runSteps_ended {s : State} (h : s.status ≠ .running) (n : Nat) : runSteps n s = .next s := by
  induction n with
  | zero => rfl
  | succ n ih => rw [runSteps_succ (step_ended h), ih]

/-- A run keeps the data memory and the store. -/
theorem runSteps_frame {n : Nat} {s t : State} (h : runSteps n s = .next t) :
    t.mem = s.mem ∧ t.program = s.program := by
  refine runSteps_induction (P := fun u => u.mem = s.mem ∧ u.program = s.program) ?_ ⟨rfl, rfl⟩ h
  rintro u v ⟨hmem, hprogram⟩ hstep
  obtain ⟨hmem', hprogram'⟩ := step_frame hstep
  exact ⟨hmem'.trans hmem, hprogram'.trans hprogram⟩

/-- A run from a sound state stays sound. -/
theorem runSteps_sound {n : Nat} {s t : State} (hs : Sound s) (h : runSteps n s = .next t) : Sound t :=
  runSteps_induction soundStateStaysSound hs h

/-! ### The pc counts the completed instructions -/

/-- A step that leaves the run going started from a running state. -/
theorem running_of_step {s t : State} (hstep : step s = .next t) (ht : t.status = .running) : s.status = .running := by
  by_contra hended
  cases (step_ended hended).symm.trans hstep
  exact hended ht

/-- As long as the run goes on, the pc counts its steps (R74). -/
theorem runSteps_pc {n : Nat} {s t : State} (hs : Sound s) (h : runSteps n s = .next t) (ht : t.status = .running) :
    t.pc.toNat = s.pc.toNat + n := by
  induction n generalizing s with
  | zero =>
    cases h
    rfl
  | succ n ih =>
    obtain ⟨u, hu⟩ := step_answers s
    rw [runSteps_succ hu] at h
    have hurun : u.status = .running := by
      by_contra hended
      cases (runSteps_ended hended n).symm.trans h
      exact hended ht
    obtain ⟨hpc, -⟩ := pcMovesByOneOrStays s u hs.store (running_of_step hu hurun) hu
    have hrest := ih (soundStateStaysSound s u hs hu) h
    rw [hpc hurun] at hrest
    omega

/-! ### The end of a run -/

/-- Every step of a running state ends the run or brings the pc closer to the end of the store. -/
theorem step_ends_or_advances {s : State} (hfit : s.program.length ≤ 4294967295) (hrun : s.status = .running) :
    ∃ t, step s = .next t ∧ (t.status ≠ .running ∨
      t.program = s.program ∧ t.pc.toNat = s.pc.toNat + 1) := by
  rcases step_running_explained hrun with ⟨w, d, v, t, hw, he, hcompletes⟩ | ⟨f, -, he⟩ | ⟨-, he⟩
  · refine ⟨t, he, .inr ⟨hcompletes.program, ?_⟩⟩
    rw [hcompletes.pc, pc_succ_toNat hfit hw]
  · exact ⟨_, he, .inl nofun⟩
  · exact ⟨_, he, .inl nofun⟩

/-- One step more than words stand from the pc on ends the run (R74). -/
theorem runSteps_terminates {n : Nat} {s : State} (hfit : s.program.length ≤ 4294967295)
    (hn : s.program.length ≤ s.pc.toNat + n) : ∃ t, runSteps (n + 1) s = .next t ∧ t.status ≠ .running := by
  induction n generalizing s with
  | zero =>
    by_cases hrun : s.status = .running
    · exact ⟨_, runSteps_succ (step_past_end hrun hn) 0, nofun⟩
    · exact ⟨s, runSteps_ended hrun 1, hrun⟩
  | succ n ih =>
    by_cases hrun : s.status = .running
    · obtain ⟨t, hstep, hended | ⟨hprogram, hpc⟩⟩ := step_ends_or_advances hfit hrun <;> rw [runSteps_succ hstep]
      · exact ⟨t, runSteps_ended hended _, hended⟩
      · exact ih (hprogram ▸ hfit) (by rw [hprogram, hpc]; omega)
    · exact ⟨s, runSteps_ended hrun _, hrun⟩

/-- A run that has ended has a last step, taken from a running state. -/
theorem exists_last_step {k : Nat} {s t : State} (hs : s.status = .running) (h : runSteps k s = .next t)
    (ht : t.status ≠ .running) : ∃ n u, runSteps n s = .next u ∧ u.status = .running ∧ step u = .next t := by
  induction k generalizing s with
  | zero =>
    cases h
    exact absurd hs ht
  | succ k ih =>
    obtain ⟨v, hv⟩ := step_answers s
    rw [runSteps_succ hv] at h
    by_cases hrun : v.status = .running
    · obtain ⟨n, u, hn, hu, hlast⟩ := ih hrun h
      exact ⟨n + 1, u, (runSteps_succ hv n).trans hn, hu, hlast⟩
    · cases (runSteps_ended hrun k).symm.trans h
      exact ⟨0, s, rfl, hs, hv⟩

/-- A step that ends the run changes the status alone, and the word at the pc explains it (R76). -/
theorem last_step_explained {u t : State} (hu : u.status = .running) (hstep : step u = .next t)
    (ht : t.status ≠ .running) :
    (t = u.withStatus .halted ∧ (AtExit u ∨ u.program.length ≤ u.pc.toNat)) ∨
    (∃ f, t = u.withStatus (.faulted f) ∧ AtFault u f) := by
  rcases step_running_explained hu with ⟨w, d, v, s, -, he, hcompletes⟩ | ⟨f, hf, he⟩ | ⟨hend, he⟩ <;>
    cases he.symm.trans hstep
  · exact absurd (hcompletes.status.trans hu) ht
  · exact .inr ⟨f, rfl, hf⟩
  · exact .inl ⟨rfl, hend⟩

/-! ### The statements -/

/-- Settles O37: a reset leaves the status running, and an ended state answers itself to every step. -/
theorem endedRunStaysEnded : Obligations.EndedRunStaysEnded :=
  ⟨loadedState_status, fun n _ hended => runSteps_ended hended n⟩

/-- Settles O46: a step neither writes nor reads the data memory, so that it stays the loaded map. -/
theorem dataMemoryIsNeverTouched : Obligations.DataMemoryIsNeverTouched := by
  refine ⟨fun s t hstep => ⟨(step_frame hstep).1, step_withMem hstep⟩, fun a n t hwf hrun x v => ?_⟩
  obtain ⟨-, hmap, -⟩ := (ResetArgs.wellFormed_iff a).1 hwf
  obtain ⟨hmem, -⟩ := runSteps_frame hrun
  rw [hmem, loadedState_mem, Memory.read_ofCells_iff hmap]

/-- Settles O53: the number of words from the pc on bounds the steps that complete, and a further step ends the run. -/
theorem everyRunTerminates : Obligations.EveryRunTerminates := by
  refine ⟨fun s hfit => ?_, fun s hfit hpc => ?_⟩
  · exact runSteps_terminates hfit (Nat.le_add_left ..)
  · exact runSteps_terminates hfit (Nat.le_of_eq (Nat.add_sub_of_le hpc).symm)

/-- Settles O54: no step writes the store, and the pc, which starts at 0, counts the steps of a run that goes on. -/
theorem nthStepRunsNthWord : Obligations.NthStepRunsNthWord := by
  refine ⟨fun n s t h => (runSteps_frame h).2, fun a n t hwf h ht => ?_⟩
  have hpc : t.pc.toNat = n := (runSteps_pc (sound_loadedState hwf) h ht).trans (Nat.zero_add n)
  have hprogram : t.program = a.program := (runSteps_frame h).2
  have hbound := (runSteps_sound (sound_loadedState hwf) h).pc
  rw [hpc, hprogram] at hbound
  exact ⟨hpc, hbound, by rw [fetch, hpc, hprogram]⟩

/-- Settles O55: the run ends by O53, its last step starts from a running state, whose pc counts the steps by O54, and
changes the status alone. -/
theorem finalStateTellsHowTheRunEnded : Obligations.FinalStateTellsHowTheRunEnded := by
  intro a t hwf h
  have hsound := sound_loadedState hwf
  have hended : t.status ≠ .running := by
    obtain ⟨t', he, hended⟩ := everyRunTerminates.1 _ hsound.store
    cases he.symm.trans h
    exact hended
  obtain ⟨n, u, hn, hu, hlast⟩ := exists_last_step (loadedState_status a) h hended
  obtain ⟨hpc, hbound, -⟩ := nthStepRunsNthWord.2 a n u hwf hn hu
  have hprogram : u.program = a.program := (runSteps_frame hn).2
  refine ⟨n, u, hn, hu, hpc, ?_⟩
  rw [← hpc, ← hprogram] at hbound ⊢
  rcases last_step_explained hu hlast hended with ⟨ht, hexit | hpast⟩ | ⟨f, ht, hf⟩
  · exact .inl ⟨ht, hexit.pc_lt, hexit⟩
  · exact .inr (.inl ⟨ht, Nat.le_antisymm hbound hpast⟩)
  · exact .inr (.inr ⟨f, ht, hf.pc_lt, hf⟩)

end Sys2Proof.Machine
end

section
/-! SUPPORT. The unchecked twins, the overflow test on bits, the constant of lui and ori, the zero word and the filler,
and the host's ports; from them the last statements (spec/42_arith_reg.md section 2; spec/44_immediate.md section 2;
spec/30_encoding.md rule R59; spec/45_syscall.md rule R131; spec/60_exceptions.md rule R140;
spec/70_reset_and_hazards.md). -/

namespace Sys2Proof.Machine

/-! ### Checked forms and their twins -/

/-- A checked form that leaves the run going commits its 32 bits, as a computation that cannot fault does. -/
theorem finish_checked_running {d : RegIdx} {n : Int} {s t : State} (h : finish d (checked n) s = .next t)
    (ht : t.status = .running) : finish d (.ok (BitVec.ofInt 32 n)) s = .next t := by
  obtain ⟨-, hout, hzero⟩ := finish_checked_outcomes d n s
  by_cases hd : d = 0
  · cases (hzero hd).symm.trans h
    cases ht
  · by_cases hn : n < -2147483648 ∨ 2147483647 < n
    · cases (hout hd hn).symm.trans h
      cases ht
    · rwa [checked_of_in hn] at h

/-- A difference of words subtracts the signed values, the borrow lost: `sub_eq_ofInt` in the signed view. -/
theorem sub_eq_ofInt_toInt {w : Nat} (x y : BitVec w) : x - y = BitVec.ofInt w (x.toInt - y.toInt) := by
  apply BitVec.eq_of_toInt_eq
  rw [BitVec.toInt_sub, BitVec.toInt_ofInt]

/-- A checked computation overflows exactly when the exact result is out of range. -/
theorem checked_eq_overflow_iff {n : Int} :
    checked n = .error .integerOverflow ↔ n < -2147483648 ∨ 2147483647 < n := by
  constructor
  · intro h
    by_contra hin
    cases (checked_of_in hin).symm.trans h
  · exact checked_of_out

/-- The range test on a sum of words is the library's signed overflow. -/
theorem addChecked_overflow_iff {a b : Word} :
    addChecked a b = .error .integerOverflow ↔ a.saddOverflow b = true := by
  rw [addChecked, checked_eq_overflow_iff]
  simp only [BitVec.saddOverflow, Bool.or_eq_true, decide_eq_true_eq]
  omega

/-- The range test on a difference of words is the library's signed overflow. -/
theorem subChecked_overflow_iff {a b : Word} :
    subChecked a b = .error .integerOverflow ↔ a.ssubOverflow b = true := by
  rw [subChecked, checked_eq_overflow_iff]
  simp only [BitVec.ssubOverflow, Bool.or_eq_true, decide_eq_true_eq]
  omega

/-! ### The constant of lui and ori, and the filler -/

/-- The upper form of one immediate with the bits of another set holds the two halves side by side. -/
theorem upperImm_or_unsignedImm_toNat (hi lo : Imm16) :
    (upperImm hi ||| unsignedImm lo).toNat = hi.toNat * 65536 + lo.toNat := by
  have hshift : hi.toNat * 65536 = hi.toNat <<< 16 := (Nat.shiftLeft_eq hi.toNat 16).symm
  rw [BitVec.toNat_or, upperImm_toNat, unsignedImm_toNat, hshift, Nat.shiftLeft_add_eq_or_of_lt lo.isLt]

/-- Storing what a register holds changes no cell. -/
theorem storeReg_readReg (s : State) {k : RegIdx} (hk : k ≠ 0) : storeReg s.regs k (readReg s k) = s.regs := by
  rw [readReg_eq_cell s hk]
  exact Vector.set_getElem_self _

/-- Committing what the destination holds changes the pc alone (R181). -/
theorem committed_readReg (s : State) {k : RegIdx} (hk : k ≠ 0) :
    committed s k (readReg s k) = s.withPc (s.pc + 1) :=
  State.ext_fields (storeReg_readReg s hk) rfl rfl rfl rfl

/-! ### The host's ports -/

/-- A reset whose arguments have the wrong shape is refused (U9). -/
theorem resetLoad_malformed {a : ResetArgs} (h : ¬ a.wellFormed = true) : resetLoad a = .refused .malformedReset := by
  rcases resetLoad_cases a with ⟨hwf, -⟩ | ⟨-, he⟩
  · exact absurd hwf h
  · exact he

/-- After the run a port answers. -/
theorem afterRun_ended {α : Type} {s : State} (h : s.status ≠ .running) (x : α) : afterRun s x = .ok x := by
  rcases afterRun_cases s x with ⟨hrun, -⟩ | ⟨-, he⟩
  · exact absurd hrun h
  · exact he

/-- During the run a port refuses. -/
theorem afterRun_running {α : Type} {s : State} (h : s.status = .running) (x : α) :
    afterRun s x = .error .inspectedWhileRunning := by
  rcases afterRun_cases s x with ⟨-, he⟩ | ⟨hended, -⟩
  · exact he
  · exact absurd h hended

/-! ### The statements -/

/-- Settles O57: the 32 bits that a checked form commits are the wrapped result. -/
theorem uncheckedTwinAgrees : Obligations.UncheckedTwinAgrees := by
  intro s t rs rt rd shamt imm _ ht
  refine ⟨fun h => ?_, fun h => ?_, fun h => ?_⟩
  · rw [exec_add] at h
    rw [exec_addu, add_eq_ofInt]
    exact finish_checked_running h ht
  · rw [exec_sub] at h
    rw [exec_subu, sub_eq_ofInt_toInt]
    exact finish_checked_running h ht
  · rw [exec_addi] at h
    rw [exec_addiu, add_eq_ofInt, signedImm_toInt]
    exact finish_checked_running h ht

/-- Settles O58: the library's signed overflow has both forms, the range test and the test on bit 31. -/
theorem overflowBitTestIsExact : Obligations.OverflowBitTestIsExact := by
  intro a b
  rw [addChecked_overflow_iff, subChecked_overflow_iff, BitVec.saddOverflow_eq, BitVec.ssubOverflow_eq, addWrap,
    subWrap]
  constructor
  · simp
  · cases a.msb <;> cases b.msb <;> simp

/-- Settles O59: lui commits the upper half, and ori, which reads it back, commits the constant. -/
theorem luiThenOriLoadsConstant : Obligations.LuiThenOriLoadsConstant := by
  intro s q rt hi lo hrt
  have hlui : exec (.lui q rt hi) s = .next (committed s rt (upperImm hi)) := by rw [exec_lui, finish_ok hrt]
  have hori (t : State) (ht : readReg t rt = upperImm hi) :
      exec (.ori rt rt lo) t = .next (committed t rt (upperImm hi ||| unsignedImm lo)) := by
    rw [exec_ori, ht, finish_ok hrt]
  refine ⟨_, _, hlui, hori _ (readReg_committed_self s hrt _), ?_, ?_, fun r hr => ?_, rfl, rfl, rfl⟩
  · rw [readUnsigned, readReg_committed_self _ hrt, upperImm_or_unsignedImm_toNat]
  · rw [committed_pc, committed_pc, BitVec.add_assoc]
    rfl
  · rw [readReg_committed_other _ hrt _ hr, readReg_committed_other s hrt _ hr]

/-- Settles O60: the zero word is a shift into register 0, and the filler commits what its register holds. -/
theorem zeroWordFaultsAndSelfOrIsHarmless : Obligations.ZeroWordFaultsAndSelfOrIsHarmless := by
  refine ⟨fun s hrun hw => ?_, fun s k shamt hk => ?_⟩
  · have hdec : decode 0 = .ok (.sll 0 0 0 0) := decode_encode (.sll 0 0 0 0)
    rw [step_ok hrun hw hdec, exec_sll, finish_zero]
  · rw [exec_or, BitVec.or_self, finish_ok hk, committed_readReg s hk]

/-- Settles O44: the dispatcher compares all 32 bits of the code with those of exit. -/
theorem syscallDispatcherHasOneEntry : Obligations.SyscallDispatcherHasOneEntry := by
  intro c
  have hcode : c.toNat = 10 ↔ c = 10 := BitVec.toNat_inj (y := 10)
  rw [ne_eq, hcode]
  by_cases hc : c = 10
  · rw [hc, dispatchSyscall_exit]
    exact ⟨fun _ => rfl, fun hne => absurd rfl hne, nofun⟩
  · rw [dispatchSyscall_other hc]
    exact ⟨fun heq => absurd heq hc, fun _ => rfl, nofun⟩

/-- Settles O45: the status output reads the table of R140 off the recorded status. -/
theorem statusPortReportsCodesAndPayloads : Obligations.StatusPortReportsCodesAndPayloads := by
  intro s w
  exact ⟨⟨rfl, rfl⟩, ⟨rfl, rfl⟩, ⟨rfl, rfl⟩, ⟨rfl, rfl⟩, ⟨rfl, rfl⟩, ⟨rfl, rfl⟩, ⟨rfl, rfl⟩⟩

/-- Settles O52: each of the three shapes of R171 is needed. -/
theorem malformedResetIsRefused : Obligations.MalformedResetIsRefused := by
  intro a
  refine ⟨fun h => resetLoad_malformed fun hwf => ?_, fun h => resetLoad_malformed fun hwf => ?_,
    fun h => resetLoad_malformed fun hwf => ?_⟩ <;>
    obtain ⟨hregs, hmap, hfit⟩ := (ResetArgs.wellFormed_iff a).1 hwf
  · exact h hregs
  · exact h hmap
  · exact Nat.not_le.2 h hfit

/-- Settles O56: both inspection ports answer through the one that exists only after the run. -/
theorem inspectionOnlyAfterTheRun : Obligations.InspectionOnlyAfterTheRun := by
  intro s
  refine ⟨fun hended => ?_, fun hrun => ?_⟩
  · exact ⟨fun r => afterRun_ended hended _, fun x => afterRun_ended hended _⟩
  · exact ⟨fun r => afterRun_running hrun _, fun x => afterRun_running hrun _⟩

end Sys2Proof.Machine
end
